-- ==== Sys2Proof/Word.lean ====
section
/-! DEFINITION. The two plain word types of QRSW: a register is 32 bits wide (spec/10_state.md section 2), a cell of system memory is one byte (spec/20_memory.md R70). -/

namespace Sys2Proof

/-- A register, a command word or a system-memory address: 32 bits (R27, R42, R70). -/
abbrev Word := BitVec 32

/-- One byte of system memory (R70). -/
abbrev Byte := BitVec 8

end Sys2Proof
end

