-- ==== Sys2Proof/Config.lean ====
section
/-! DEFINITION. The build parameters of a QRSW instance (spec/00_scope.md R8, R9), the fixed limits, and the free values: what the spec calls unspecified and a model may treat as any value (spec/93_implementation_defined.md U3, U9). -/

namespace Sys2Proof

/-- The rounding mode of the whole build, `RMODE` (R8, R9): 0 = DOUBLE, 1 = SINGLE. -/
inductive RMode
  | double
  | single
  deriving DecidableEq, Repr

/-- `F`, the number of fraction bits of the multiplier: 30 or 31 (R8). -/
inductive FracBits
  | f30
  | f31
  deriving DecidableEq, Repr

/-- The number `F` stands for. -/
def FracBits.toNat : FracBits → Nat
  | .f30 => 30
  | .f31 => 31

/-- What stands at a region of the platform's address map that is not ordinary memory: a device (R76, U6), or a hole that answers with a bus error (R79, U7). -/
inductive RegionKind
  | device
  | busError
  deriving DecidableEq, Repr

/-- A region of the platform's address map that is not ordinary memory. R78 leaves the map to the platform. -/
structure Region where
  base : Nat
  size : Nat
  kind : RegionKind
  deriving DecidableEq, Repr

/-- The build and platform parameters of one instance (R8). Their legal ranges hold by the fields' types, but for `WBUF_BYTES ≥ 1`: see `Params.wf`. DEDUCED (log 15): the widths are those of CFG0, CFG1 and the address. -/
structure Params where
  /-- `RMODE`. -/
  rmode : RMode
  /-- `F`. -/
  frac : FracBits
  /-- `NCH_MAX - 1`, as CFG0 reports it (R23). -/
  nchMaxM1 : BitVec 16
  /-- `WBUF_BYTES`, as CFG1 reports it (R24). -/
  wbufBytes : Word
  /-- `QRSW_BASE / 256`: the base is 256-byte aligned (R8). -/
  basePage : BitVec 24
  /-- The platform's regions that are not ordinary memory (R76, R78, R79). -/
  regions : List Region
  deriving DecidableEq, Repr

/-- `NCH_MAX`, 1 to 65536 (R8). -/
def Params.nchMax (p : Params) : Nat := p.nchMaxM1.toNat + 1

/-- `QRSW_BASE` (R8). -/
def Params.base (p : Params) : Nat := p.basePage.toNat * 256

/-- The one range of R8 that the types do not give: `WBUF_BYTES` is at least 1. -/
def Params.wf (p : Params) : Bool := p.wbufBytes != 0

/-- The parameters of the reset state: those the spec's test vectors assume (spec/95_test_vectors.md), a window at the top of the map, and no region that is not memory. DESIGN CHOICE (log 1), unsafe: a claim about `State.reset` alone is about this instance. -/
def Params.reference : Params :=
  { rmode := .double, frac := .f31, nchMaxM1 := 15, wbufBytes := 4096, basePage := 0xFFFFFF, regions := [] }

namespace Config

/-- `SHIFT_MIN` (R8). -/
abbrev shiftMin : Int := -31
/-- `SHIFT_MAX` (R8). -/
abbrev shiftMax : Int := 31
/-- `MAX_LINES`, the upper bound on W_CAP (R8). -/
abbrev maxLines : Int := 4096
/-- `MAX_LEN`, the upper bound on W_LEN (R8). -/
abbrev maxLen : Int := 4096
/-- `MAX_DIM`, the upper bound on source dimensions and paddings (R8). -/
abbrev maxDim : Int := 65535

/-- FREE VALUE: `pc_tab[c].mult` in reset generation `g` while the host has not written it (R40, U3: any value). DESIGN CHOICE (log 4), safe. -/
opaque pcMultFree (g c : Nat) : Word
/-- FREE VALUE: `pc_tab[c].shift` in reset generation `g` while the host has not written it (R40, U3: any value). DESIGN CHOICE (log 4), safe. -/
opaque pcShiftFree (g c : Nat) : Word
/-- FREE VALUE: `ring[slot][p]` in ring generation `g` while no WADV has written it (R46, U9: any value). DESIGN CHOICE (log 5), safe. -/
opaque ringFree (g slot p : Nat) : BitVec 16

end Config

end Sys2Proof
end

