-- ==== Sys2Proof/Machine/State.lean ====
section
/-! DEFINITION. The state of QRSW (spec/10_state.md R20 to R49), the inputs that act on it, why a step can stop, and the state after reset. -/

namespace Sys2Proof.Machine

open Sys2Proof

/-- System memory as (address, byte) pairs, addresses rising, no pair that holds what an unlisted address reads as. An unlisted address reads as 0: DESIGN CHOICE (log 7), unsafe. -/
abbrev Memory := List Host.Cell

/-- The negative status codes of R220. -/
inductive ErrCode
  /-- -1: a base address is 0. -/
  | null
  /-- -2: a base or stride is not a multiple of the access width. -/
  | align
  /-- -3: a parameter is out of range. -/
  | param
  /-- -4: a shift outside -31 .. 31. -/
  | shift
  /-- -5: a zero-point or pad value outside its range. -/
  | zp
  /-- -6: SZ_S < 1 or SZ_S > SZ_K. -/
  | stride
  /-- -7: a ring size that cannot be. -/
  | size
  /-- -8: the command word matches no row. -/
  | illegal
  /-- -9: a window command while no window is open. -/
  | state
  deriving DecidableEq, Repr

/-- `W_FMT.ORIENT` (R38): 0 = a line is a row, 1 = a line is a column. -/
inductive Orient
  | rows
  | columns
  deriving DecidableEq, Repr

/-- `W_FMT.ELEM`, the format of a ring element (R18). -/
inductive Elem
  | s8
  | u8
  | s16
  | u16
  deriving DecidableEq, Repr

/-- The read-write registers that have storage (R29 to R34, R37, R38, R41). QFMT, PC_INDEX and W_FMT hold only the bits that are not RAZ/WI. -/
structure Regs where
  /-- ACC_LO (R29). -/
  accLo : Word
  /-- ACC_HI (R29). -/
  accHi : Word
  /-- QMULT (R30). -/
  qmult : Word
  /-- QSHIFT (R31). -/
  qshift : Word
  /-- QZP (R32). -/
  qzp : Word
  /-- QFMT.OUTFMT (R33). -/
  qfmt : BitVec 3
  /-- PC_INDEX.IDX (R34). -/
  pcIndex : BitVec 16
  /-- RQ_SRC (R37). -/
  rqSrc : Word
  /-- RQ_SSTR (R37). -/
  rqSstr : Word
  /-- RQ_DST (R37). -/
  rqDst : Word
  /-- RQ_DSTR (R37). -/
  rqDstr : Word
  /-- RQ_CNT (R37). -/
  rqCnt : Word
  /-- RQ_CH0 (R37). -/
  rqCh0 : Word
  /-- RQ_RUN (R37). -/
  rqRun : Word
  /-- RQ_NCH (R37). -/
  rqNch : Word
  /-- W_SRC (R38). -/
  wSrc : Word
  /-- W_PITCH_Y (R38). -/
  wPitchY : Word
  /-- W_PITCH_X (R38). -/
  wPitchX : Word
  /-- W_SRC_H (R38). -/
  wSrcH : Word
  /-- W_SRC_W (R38). -/
  wSrcW : Word
  /-- W_PAD_L (R38). -/
  wPadL : Word
  /-- W_PAD_P (R38). -/
  wPadP : Word
  /-- W_LEN (R38). -/
  wLen : Word
  /-- W_CAP (R38). -/
  wCap : Word
  /-- W_PADV (R38). -/
  wPadv : Word
  /-- W_FMT: ORIENT in bit 0, ELEM in bits 2..1 (R38). -/
  wFmt : BitVec 3
  /-- SZ_K (R41). -/
  szK : Word
  /-- SZ_S (R41). -/
  szS : Word
  /-- SZ_D (R41). -/
  szD : Word
  /-- SZ_T (R41). -/
  szT : Word
  /-- SZ_PADDED (R41). -/
  szPadded : Word
  deriving DecidableEq, Repr

/-- The latched window state `w` (R45). -/
structure Window where
  /-- `w.open`. -/
  isOpen : Bool
  /-- `w.src`. -/
  src : Word
  /-- `w.py`. -/
  py : Word
  /-- `w.px`. -/
  px : Word
  /-- `w.h`. -/
  h : Nat
  /-- `w.w`. -/
  w : Nat
  /-- `w.padl`. -/
  padl : Nat
  /-- `w.padp`. -/
  padp : Nat
  /-- `w.len`. -/
  len : Nat
  /-- `w.cap`. -/
  cap : Nat
  /-- `w.padv`. -/
  padv : Int
  /-- `w.orient`. -/
  orient : Orient
  /-- `w.elem`. -/
  elem : Elem
  /-- `w.head`: slot of the oldest resident line. -/
  head : Nat
  /-- `w.valid`: number of resident lines. -/
  valid : Nat
  /-- `w.top`: line index of the oldest resident line. -/
  top : Int
  deriving DecidableEq, Repr

/-- The width of a host access to the register window. Only `word` is defined (R200, R201; U4). -/
inductive AccessWidth
  | byte
  | half
  | word
  | dword
  deriving DecidableEq, Repr

/-- What can happen to the block from outside, one a step: a host register read or write (R200, R201), a write of one byte of system memory by the host or another master between commands (R80), a reset (R250). DESIGN CHOICE (logs 2, 12, 17). -/
inductive HostOp
  /-- `rd`: a read of the given width at a byte offset of the register window. -/
  | read (width : AccessWidth) (off : BitVec 8)
  /-- `wr`: a write of the given width and value at a byte offset of the register window. -/
  | write (width : AccessWidth) (off : BitVec 8) (v : Word)
  /-- The host or another master writes one byte of system memory. -/
  | memWrite (addr : Word) (b : Byte)
  /-- The block's reset is asserted and released. -/
  | reset
  deriving DecidableEq, Repr

/-- Why the machine is stuck. -/
inductive Fault
  /-- A bus error at this address was returned to the block's master port: the command never completes (R79, U7). Raised by RQM and WADV. Safe: nothing can be proved of a later state. -/
  | busError (addr : Nat)
  deriving DecidableEq, Repr

/-- Why the model makes no claim. -/
inductive Refusal
  /-- An instruction that has no meaning yet, by its mnemonic. Raised by no arm of `exec`. Safe. -/
  | notModelled (mnemonic : String)
  /-- A host access that is not 32 bits wide or not 4-byte aligned (R200, U4). Raised by a host read or write. Safe. -/
  | hostAccessShape (off : BitVec 8)
  /-- A host access other than a STATUS read, a memory write, or a reset, while BUSY = 1 (R260, R251; U5, U8). Raised by any host operation. Safe: no run reaches a state with BUSY = 1. -/
  | hostAccessWhileBusy
  /-- A command access to a device or to the block's own register window, or a memory write by another agent that does not fall on ordinary memory (R76, U6). Raised by RQM, WADV and `HostOp.memWrite`. Safe. -/
  | notOrdinaryMemory (addr : Nat)
  deriving DecidableEq, Repr

/-- Why a bus access of a command ends the step. -/
inductive Stop
  | fault (r : Fault)
  | refused (r : Refusal)
  deriving DecidableEq, Repr

/-- The whole state (R20). -/
structure State where
  /-- The build parameters (R8, R20(6)): constants of the instance, which no step changes. DESIGN CHOICE (log 1). -/
  cfg : Params
  /-- The read-write registers. -/
  regs : Regs
  /-- STATUS.BUSY (R25). -/
  busy : Bool
  /-- STATUS.ERR (R25). -/
  err : Bool
  /-- ERRCODE (R26). -/
  errcode : Word
  /-- RESULT_LO (R28). -/
  resultLo : Word
  /-- RESULT_HI (R28). -/
  resultHi : Word
  /-- `pc_tab[c].mult` where the host has written it since reset, by rising `c` (R40). -/
  pcMult : List (Nat × Word)
  /-- `pc_tab[c].shift` where the host has written it since reset, by rising `c` (R40). -/
  pcShift : List (Nat × Word)
  /-- The latched window `w` (R45). -/
  win : Window
  /-- The ring store (R46): the slots WADV has written since the last WINIT, by rising slot, each with its elements' bit patterns (zero-extended to 16 bits, log 16). -/
  ring : List (Nat × List (BitVec 16))
  /-- System memory (R70). -/
  mem : Memory
  /-- MODEL'S OWN: the generation of `pc_tab`'s free values (log 4). -/
  pcGen : Nat
  /-- MODEL'S OWN: the generation of the ring's free values (log 5). -/
  ringGen : Nat
  /-- MODEL'S OWN: the outside operations still to come, the next one first (log 2). -/
  pending : List HostOp
  /-- MODEL'S OWN: what the last host read returned (log 3). -/
  rdata : Word
  deriving DecidableEq, Repr

/-- Every read-write register at its reset value 0 (R49). -/
def Regs.reset : Regs :=
  { accLo := 0, accHi := 0, qmult := 0, qshift := 0, qzp := 0, qfmt := 0, pcIndex := 0,
    rqSrc := 0, rqSstr := 0, rqDst := 0, rqDstr := 0, rqCnt := 0, rqCh0 := 0, rqRun := 0, rqNch := 0,
    wSrc := 0, wPitchY := 0, wPitchX := 0, wSrcH := 0, wSrcW := 0, wPadL := 0, wPadP := 0, wLen := 0,
    wCap := 0, wPadv := 0, wFmt := 0, szK := 0, szS := 0, szD := 0, szT := 0, szPadded := 0 }

/-- The window closed (R49). The other fields are unspecified and unread: DESIGN CHOICE 0 (log 6), unsafe. -/
def Window.reset : Window :=
  { isOpen := false, src := 0, py := 0, px := 0, h := 0, w := 0, padl := 0, padp := 0, len := 0, cap := 0,
    padv := 0, orient := .rows, elem := .s8, head := 0, valid := 0, top := 0 }

/-- The state after reset (R49): registers 0, no window, `pc_tab` and `ring` unspecified, nothing listed in memory, no outside operation pending. -/
def State.reset : State :=
  { cfg := Params.reference, regs := Regs.reset, busy := false, err := false, errcode := 0, resultLo := 0,
    resultHi := 0, pcMult := [], pcShift := [], win := Window.reset, ring := [], mem := [], pcGen := 0,
    ringGen := 0, pending := [], rdata := 0 }

end Sys2Proof.Machine
end

