-- ==== Sys2Proof/Machine/Flags.lean ====
section
/-! DEFINITION. The status code and the two flags of STATUS (spec/10_state.md R25, R26; spec/60_exceptions.md R220). QRSW has no other flag. -/

namespace Sys2Proof.Machine

open Sys2Proof

/-- The number of a status code (R220). -/
def errNumber : ErrCode → Int
  | .null => -1
  | .align => -2
  | .param => -3
  | .shift => -4
  | .zp => -5
  | .stride => -6
  | .size => -7
  | .illegal => -8
  | .state => -9

/-- What ERRCODE holds for a status code: the number as a signed 32-bit integer (R26). -/
def errWord (c : ErrCode) : Word := BitVec.ofInt 32 (errNumber c)

/-- STATUS (R25): BUSY in bit 0, ERR in bit 1, the rest zero. -/
def statusWord (busy err : Bool) : Word := 0#30 ++ BitVec.ofBool err ++ BitVec.ofBool busy

end Sys2Proof.Machine
end

