-- ==== Sys2Proof/Machine/Ops.lean ====
section
/-! DEFINITION. The shared operations: conversions (spec/00_scope.md R11), system memory and the master port (R14; spec/20_memory.md R70 to R80), sparse tables, and how a command ends (R15, R16). -/

namespace Sys2Proof.Machine

open Sys2Proof

/-! ### Conversions -/

/-- `s32(r)`: a register as a two's-complement integer (R11). -/
abbrev s32 (r : Word) : Int := r.toInt

/-- `u32(r)`: a register as an unsigned integer (R11). -/
abbrev u32 (r : Word) : Nat := r.toNat

/-- `wrap32(v) = v mod 2^32` (R11), the address arithmetic of R77. -/
def wrap32 (v : Int) : Nat := (v % 2 ^ 32).toNat

/-- `clamp(v, lo, hi)` (R12). -/
def clamp (v lo hi : Int) : Int := min hi (max lo v)

/-! ### System memory: one byte -/

/-- What an unlisted address reads as. DESIGN CHOICE (log 7), unsafe. -/
def memDefault : Byte := 0

/-- Read one byte. -/
def memRead1 : Memory → Nat → Byte
  | [], _ => memDefault
  | (b, u) :: m, a => if a = b then u else memRead1 m a

/-- Write one byte, keeping the canonical form. -/
def memWrite1 : Memory → Nat → Byte → Memory
  | [], a, v => if v = memDefault then [] else [(a, v)]
  | (b, u) :: m, a, v =>
    if a < b then
      if v = memDefault then (b, u) :: m else (a, v) :: (b, u) :: m
    else if a = b then
      if v = memDefault then m else (b, v) :: m
    else (b, u) :: memWrite1 m a v

/-- The canonical form from address `lo` on: addresses rise, lie below 2^32, and no pair holds the default. -/
def memWfFrom : Nat → Memory → Bool
  | _, [] => true
  | lo, (a, v) :: m => decide (lo ≤ a) && decide (a < 2 ^ 32) && (v != memDefault) && memWfFrom (a + 1) m

/-- The canonical form of memory. -/
def Memory.wf (m : Memory) : Bool := memWfFrom 0 m

/-! ### System memory: little-endian words (R14, R71)
Each byte's address is taken modulo 2^32. An aligned access never wraps (R74), so this shows only in accesses the block does not make (log 14). -/

/-- `MemRead(addr, n)`: the `n` bytes at `addr` as a little-endian unsigned integer (R14). -/
def memRead (m : Memory) (addr : Nat) : Nat → Nat
  | 0 => 0
  | n + 1 => (memRead1 m (addr % 2 ^ 32)).toNat + 256 * memRead m (addr + 1) n

/-- The `n` bytes of the unsigned integer `v`, stored little-endian at `addr`. -/
def memStore (m : Memory) (addr : Nat) : Nat → Nat → Memory
  | 0, _ => m
  | n + 1, v => memStore (memWrite1 m (addr % 2 ^ 32) (BitVec.ofNat 8 v)) (addr + 1) n (v / 256)

/-- `MemWrite(addr, n, v)`: the `n` bytes of `bits_{8n}(v)`, little-endian at `addr` (R14). -/
def memWrite (m : Memory) (addr n : Nat) (v : Int) : Memory := memStore m addr n (v % 2 ^ (8 * n)).toNat

/-! ### The master port -/

/-- What the first region that holds `a` does to an access (R76, R79): `none` is ordinary memory. That the first region decides is log 22. -/
def regionStop (a : Nat) : List Region → Option Stop
  | [] => none
  | r :: rs =>
    if r.base ≤ a ∧ a < r.base + r.size then
      match r.kind with
      | .device => some (.refused (.notOrdinaryMemory a))
      | .busError => some (.fault (.busError a))
    else regionStop a rs

/-- What stands in the way of an access to one byte: the block's own register window (R70, R76; U6), a device (U6), a bus error (R79; U7), or nothing. DEDUCED (logs 10, 11). -/
def busStop1 (p : Params) (a : Nat) : Option Stop :=
  if p.base ≤ a ∧ a < p.base + 256 then some (.refused (.notOrdinaryMemory a)) else regionStop a p.regions

/-- The same for the `n` bytes at `addr`: the first byte that stops the access. -/
def busStop (p : Params) (addr : Nat) : Nat → Option Stop
  | 0 => none
  | n + 1 =>
    match busStop1 p (addr % 2 ^ 32) with
    | some st => some st
    | none => busStop p (addr + 1) n

/-- A read of the master port. -/
def busRead (p : Params) (m : Memory) (addr n : Nat) : Except Stop Nat :=
  match busStop p addr n with
  | some st => .error st
  | none => .ok (memRead m addr n)

/-- A write of the master port. -/
def busWrite (p : Params) (m : Memory) (addr n : Nat) (v : Int) : Except Stop Memory :=
  match busStop p addr n with
  | some st => .error st
  | none => .ok (memWrite m addr n v)

/-! ### Sparse tables by rising key: `pc_tab` and the ring -/

/-- The entry of key `k`. -/
def tabGet {α : Type} : List (Nat × α) → Nat → Option α
  | [], _ => none
  | (j, x) :: t, k => if k = j then some x else tabGet t k

/-- Write the entry of key `k`. -/
def tabSet {α : Type} : List (Nat × α) → Nat → α → List (Nat × α)
  | [], k, y => [(k, y)]
  | (j, x) :: t, k, y =>
    if k < j then (k, y) :: (j, x) :: t
    else if k = j then (j, y) :: t
    else (j, x) :: tabSet t k y

/-- Keys rise from `lo` on and lie below `hi`. -/
def tabWfFrom {α : Type} : Nat → Nat → List (Nat × α) → Bool
  | _, _, [] => true
  | lo, hi, (j, _) :: t => decide (lo ≤ j) && decide (j < hi) && tabWfFrom (j + 1) hi t

/-! ### How a command ends -/

/-- `succeed` (R16): ERRCODE <- 0, STATUS.ERR <- 0. -/
def State.succeed (s : State) : State := { s with errcode := 0, err := false }

/-- `raise Fail(code)` (R15, R221, R223): ERRCODE <- code, STATUS.ERR <- 1, and nothing else. This is QRSW's whole exception entry: nothing is saved, no handler runs, and the return is the next command (R224). -/
def State.fail (s : State) (c : ErrCode) : State := { s with errcode := errWord c, err := true }

/-- RESULT <- `bits_64(v)` (R28). -/
def State.setResult (s : State) (v : Int) : State :=
  { s with resultLo := (BitVec.ofInt 64 v).extractLsb' 0 32, resultHi := (BitVec.ofInt 64 v).extractLsb' 32 32 }

/-- The step of a command whose access was stopped: stuck, or outside the model (R76, R79). -/
def Stop.outcome : Stop → Host.Outcome State Fault Refusal
  | .fault r => .fault r
  | .refused r => .refused r

end Sys2Proof.Machine
end

