-- ==== Sys2Proof/Machine/Control.lean ====
section
/-! DEFINITION. NOP (spec/42_host_interface.md R205). -/

namespace Sys2Proof.Machine

open Sys2Proof

/-- NOP (R205): `succeed`. -/
def execNop (s : State) : Host.Outcome State Fault Refusal := .next s.succeed

end Sys2Proof.Machine
end

