-- ==== Sys2Proof/Syntax.lean ====
section
/-! DEFINITION. The nine commands of QRSW (spec/30_encoding.md R94), one constructor per row of spec/opcode_table.json. Operands are the unsigned numbers R93 assembles. -/

namespace Sys2Proof

/-- `ACCW`, the accumulator width of a rescale command (R93): 0 = 32-bit, 1 = 64-bit. -/
inductive AccWidth
  | acc32
  | acc64
  deriving DecidableEq, Repr

/-- A command (R94). -/
inductive Instr
  /-- NOP (R205). -/
  | nop
  /-- RQ: scalar rescale, per-tensor parameters (R126). -/
  | rq (accw : AccWidth)
  /-- RQPC: scalar rescale, the parameters of channel `ch` (R127). -/
  | rqpc (ch : Nat) (accw : AccWidth)
  /-- RQM: rescale a run of accumulators from memory to memory (R128). -/
  | rqm (perch : Bool) (accw : AccWidth)
  /-- WINIT: open a window (R160). -/
  | winit
  /-- WADV: load the next `n` lines (R162). -/
  | wadv (n : Nat)
  /-- WRD: read position `col` of window line `row` (R165). -/
  | wrd (row col : Nat)
  /-- WCLOSE: discard the window (R167). -/
  | wclose
  /-- SIZEQ: ring capacity and byte size of a geometry (R170). -/
  | sizeq
  deriving DecidableEq, Repr

end Sys2Proof
end

