-- ==== Sys2Proof/WellFormed.lean ====
section
/-! DEFINITION. Which commands have an encoding: every operand fits the field R93 gives it. -/

namespace Sys2Proof

/-- `CH` and `N` are 16-bit fields, `ROW` and `COL` are 12-bit fields (R93). -/
def Instr.wf : Instr → Bool
  | .nop => true
  | .rq _ => true
  | .rqpc ch _ => decide (ch < 65536)
  | .rqm _ _ => true
  | .winit => true
  | .wadv n => decide (n < 65536)
  | .wrd row col => decide (row < 4096) && decide (col < 4096)
  | .wclose => true
  | .sizeq => true

end Sys2Proof
end

