-- ==== Sys2Proof/Decode.lean ====
section
/-! DEFINITION. Decoding a command word by the table of spec/30_encoding.md R94 and the procedure of R96, and the encoder written from the patterns of R99. -/

namespace Sys2Proof

/-- Why a word is illegal (R95): its OP is not in the table, or a reserved bit of a listed OP is set. -/
inductive Illegal
  | reservedOpcode
  | reservedBits
  deriving DecidableEq, Repr

/-- A row of R94: the word matches when `(x & mask) = value`. -/
structure OpRow where
  mask : Word
  value : Word

/-- `CMD[31:24]` (R91). -/
def fieldOp (x : Word) : Nat := (x >>> 24).toNat
/-- `ACCW = CMD[0]` (R93). -/
def fieldAccw (x : Word) : AccWidth := if x.getLsbD 0 then .acc64 else .acc32
/-- `PERCH = CMD[1]` (R93). -/
def fieldPerch (x : Word) : Bool := x.getLsbD 1
/-- `CH = CMD[23:8]` (R93). -/
def fieldCh (x : Word) : Nat := (x.extractLsb' 8 16).toNat
/-- `N = CMD[15:0]` (R93). -/
def fieldN (x : Word) : Nat := (x.extractLsb' 0 16).toNat
/-- `ROW = CMD[23:12]` (R93). -/
def fieldRow (x : Word) : Nat := (x.extractLsb' 12 12).toNat
/-- `COL = CMD[11:0]` (R93). -/
def fieldCol (x : Word) : Nat := (x.extractLsb' 0 12).toNat

/-- The row of R94 that a command's words match. -/
def Instr.row : Instr → OpRow
  | .nop => ⟨0xFFFFFFFF, 0x00000000⟩
  | .rq _ => ⟨0xFFFFFFFE, 0x01000000⟩
  | .rqpc _ _ => ⟨0xFF0000FE, 0x02000000⟩
  | .rqm _ _ => ⟨0xFFFFFFFC, 0x03000000⟩
  | .winit => ⟨0xFFFFFFFF, 0x10000000⟩
  | .wadv _ => ⟨0xFFFF0000, 0x11000000⟩
  | .wrd _ _ => ⟨0xFF000000, 0x12000000⟩
  | .wclose => ⟨0xFFFFFFFF, 0x13000000⟩
  | .sizeq => ⟨0xFFFFFFFF, 0x14000000⟩

/-- The table of R94, row by row: the command each row stands for, with its fields (R92, R93) read from the word. -/
def tableCommands (x : Word) : List Instr :=
  [.nop, .rq (fieldAccw x), .rqpc (fieldCh x) (fieldAccw x), .rqm (fieldPerch x) (fieldAccw x), .winit,
    .wadv (fieldN x), .wrd (fieldRow x) (fieldCol x), .wclose, .sizeq]

/-- `(x & row.mask) = row.match` (R94, R96). -/
def OpRow.matches (r : OpRow) (x : Word) : Bool := (x &&& r.mask) == r.value

/-- The OP values of R94's table. -/
def listedOps : List Nat := [0x00, 0x01, 0x02, 0x03, 0x10, 0x11, 0x12, 0x13, 0x14]

/-- The decode procedure (R96): the first row that matches, with its fields; else illegal, by name (R95). -/
def decode (x : Word) : Except Illegal Instr :=
  match (tableCommands x).find? (fun i => i.row.matches x) with
  | some i => .ok i
  | none => if listedOps.contains (fieldOp x) then .error .reservedBits else .error .reservedOpcode

/-- The bit `a` of the patterns of R99. -/
def AccWidth.bit : AccWidth → BitVec 1
  | .acc32 => 0
  | .acc64 => 1

/-- The word of a command, from the patterns of R99. -/
def encode : Instr → Word
  | .nop => 0x00000000
  | .rq a => 0x01#8 ++ 0#23 ++ a.bit
  | .rqpc ch a => 0x02#8 ++ BitVec.ofNat 16 ch ++ 0#7 ++ a.bit
  | .rqm p a => 0x03#8 ++ 0#22 ++ BitVec.ofBool p ++ a.bit
  | .winit => 0x10000000
  | .wadv n => 0x11#8 ++ 0#8 ++ BitVec.ofNat 16 n
  | .wrd r k => 0x12#8 ++ BitVec.ofNat 12 r ++ BitVec.ofNat 12 k
  | .wclose => 0x13000000
  | .sizeq => 0x14000000

/-- The host's question: the command this decoder reads from the opcode table's bits. A command is one 32-bit word written to CMD (R90), so the table's numbering is the word's own. DEDUCED (log 20). -/
def decodeTableWord (nbits w : Nat) : Option Instr :=
  if w % 2 ^ nbits < 2 ^ 32 then (decode (BitVec.ofNat 32 (w % 2 ^ nbits))).toOption else none

end Sys2Proof
end

