-- ==== Sys2Proof/Machine/Operands.lean ====
section
/-! DEFINITION. Operand forms: the accumulator and the parameters of a rescale (spec/10_state.md R29 to R36, R40), output formats and element formats (spec/00_scope.md R17, R18), the ring (R46). -/

namespace Sys2Proof.Machine

open Sys2Proof

/-! ### Output formats (R17) -/

/-- An output format. -/
inductive OutFmt
  | s8
  | u8
  | s16
  | u16
  | s32
  deriving DecidableEq, Repr

/-- The format an OUTFMT value selects; 5, 6 and 7 are reserved (R17). -/
def outFmtOf (b : BitVec 3) : Option OutFmt :=
  match b.toNat with
  | 0 => some .s8
  | 1 => some .u8
  | 2 => some .s16
  | 3 => some .u16
  | 4 => some .s32
  | _ => none

/-- `OUTMIN(fmt)` (R17). -/
def outMin : OutFmt → Int
  | .s8 => -128
  | .u8 => 0
  | .s16 => -32768
  | .u16 => 0
  | .s32 => -2147483648

/-- `OUTMAX(fmt)` (R17). -/
def outMax : OutFmt → Int
  | .s8 => 127
  | .u8 => 255
  | .s16 => 32767
  | .u16 => 65535
  | .s32 => 2147483647

/-- `OBYTES(fmt)` (R17). -/
def outBytes : OutFmt → Nat
  | .s8 => 1
  | .u8 => 1
  | .s16 => 2
  | .u16 => 2
  | .s32 => 4

/-! ### Accumulators (R93) -/

/-- The bytes of an accumulator in memory (R93, R128). -/
def accBytes : AccWidth → Nat
  | .acc32 => 4
  | .acc64 => 8

/-- `sext` of a memory accumulator of the given width (R128). -/
def accValue : AccWidth → Nat → Int
  | .acc32, v => (BitVec.ofNat 32 v).toInt
  | .acc64, v => (BitVec.ofNat 64 v).toInt

/-- The accumulator operand of RQ and RQPC (R29): `sext_32(ACC_LO)` or `sext_64({ACC_HI, ACC_LO})`. -/
def accOperand (a : AccWidth) (g : Regs) : Int :=
  match a with
  | .acc32 => g.accLo.toInt
  | .acc64 => (g.accHi ++ g.accLo).toInt

/-! ### The per-channel table (R40) -/

/-- `pc_tab[c].mult`: what the host wrote, else the free value (R40, U3; log 4). -/
def pcMultAt (s : State) (c : Nat) : Word := (tabGet s.pcMult c).getD (Config.pcMultFree s.pcGen c)

/-- `pc_tab[c].shift`: what the host wrote, else the free value (R40, U3; log 4). -/
def pcShiftAt (s : State) (c : Nat) : Word := (tabGet s.pcShift c).getD (Config.pcShiftFree s.pcGen c)

/-! ### Window formats and the ring (R18, R38, R46) -/

/-- `W_FMT.ORIENT` (R38). -/
def orientOf (b : BitVec 3) : Orient := if b.getLsbD 0 then .columns else .rows

/-- `W_FMT.ELEM` (R38, R18). -/
def elemOf (b : BitVec 3) : Elem :=
  match (b.extractLsb' 1 2).toNat with
  | 0 => .s8
  | 1 => .u8
  | 2 => .s16
  | _ => .u16

/-- `EBYTES(elem)` (R18). -/
def elemBytes : Elem → Nat
  | .s8 => 1
  | .u8 => 1
  | .s16 => 2
  | .u16 => 2

/-- `ELO(elem)` (R18). -/
def elemLo : Elem → Int
  | .s8 => -128
  | .u8 => 0
  | .s16 => -32768
  | .u16 => 0

/-- `EHI(elem)` (R18). -/
def elemHi : Elem → Int
  | .s8 => 127
  | .u8 => 255
  | .s16 => 32767
  | .u16 => 65535

/-- `ext(elem, b)` (R18): the low `8·EBYTES` bits of the pattern, sign- or zero-extended. -/
def elemExt (e : Elem) (b : BitVec 16) : Int :=
  match e with
  | .s8 => (b.setWidth 8).toInt
  | .u8 => (b.setWidth 8).toNat
  | .s16 => b.toInt
  | .u16 => b.toNat

/-- `bits_{8·eb}(v)` of an element, zero-extended to 16 bits (R11, R161; log 16). -/
def elemBits (e : Elem) (v : Int) : BitVec 16 := BitVec.ofInt 16 (v % 2 ^ (8 * elemBytes e))

/-- `ring[slot][p]` (R46): what WADV wrote there since the last WINIT, else the free value (U9; log 5). -/
def ringCell (s : State) (slot p : Nat) : BitVec 16 :=
  match tabGet s.ring slot with
  | some cells => cells[p]?.getD (Config.ringFree s.ringGen slot p)
  | none => Config.ringFree s.ringGen slot p

end Sys2Proof.Machine
end

