-- ==== Sys2Proof/Machine/Rescale.lean ====
section
/-! DEFINITION. The rescaler (spec/40_rescale.md): the function `Rescale` (R120 to R124) and the commands RQ, RQPC and RQM (R126 to R128). All arithmetic is exact in the integers (R130). -/

namespace Sys2Proof.Machine

open Sys2Proof

/-! ### The function -/

/-- `RNDA(x, n)` (R12): `x / 2^n` rounded to nearest, ties away from zero. -/
def rnda (x : Int) (n : Nat) : Int :=
  if n = 0 then x
  else
    let q : Int := ((x.natAbs + 2 ^ (n - 1)) / 2 ^ n : Nat)
    if x < 0 then -q else q

/-- Double rounding (R121). -/
def roundDouble (f : Nat) (acc m s : Int) : Int :=
  rnda (rnda (acc * 2 ^ s.toNat * m) f) (-s).toNat

/-- Single rounding (R122). -/
def roundSingle (f : Nat) (acc m s : Int) : Int :=
  let k : Int := f - s
  if 0 ≤ k then rnda (acc * m) k.toNat else acc * m * 2 ^ (-k).toNat

/-- The rounded value `r` of the build's mode (R9, R121, R122). -/
def roundScaled (p : Params) (acc m s : Int) : Int :=
  match p.rmode with
  | .double => roundDouble p.frac.toNat acc m s
  | .single => roundSingle p.frac.toNat acc m s

/-- `Rescale(acc, m, s, z, fmt)` (R120, R123). -/
def rescale (p : Params) (acc m s z : Int) (fmt : OutFmt) : Int :=
  clamp (roundScaled p acc m s + z) (outMin fmt) (outMax fmt)

/-- `s < -31 or s > 31` (R124). -/
def shiftBad (s : Int) : Bool := decide (s < Config.shiftMin ∨ Config.shiftMax < s)

/-- `z < OUTMIN(fmt) or z > OUTMAX(fmt)` (R124). -/
def zpBad (z : Int) (fmt : OutFmt) : Bool := decide (z < outMin fmt ∨ outMax fmt < z)

/-- `CheckQ(m, s, z, fmt)` (R124): the code of the first check that fails, or the format. -/
def checkQ (m s z : Int) (f : BitVec 3) : Except ErrCode OutFmt :=
  match outFmtOf f with
  | none => .error .param
  | some fmt =>
    if m < 0 then .error .param
    else if shiftBad s then .error .shift
    else if zpBad z fmt then .error .zp
    else .ok fmt

/-! ### RQ and RQPC -/

/-- The common part of RQ and RQPC (R126, R127) for the multiplier and shift words `m` and `sh`. -/
def scalarRescale (m sh : Word) (a : AccWidth) (s : State) : State :=
  match checkQ (s32 m) (s32 sh) (s32 s.regs.qzp) s.regs.qfmt with
  | .error e => s.fail e
  | .ok fmt =>
    (s.setResult (rescale s.cfg (accOperand a s.regs) (s32 m) (s32 sh) (s32 s.regs.qzp) fmt)).succeed

/-- RQ (R126). -/
def execRq (a : AccWidth) (s : State) : Host.Outcome State Fault Refusal :=
  .next (scalarRescale s.regs.qmult s.regs.qshift a s)

/-- RQPC (R127). -/
def execRqpc (ch : Nat) (a : AccWidth) (s : State) : Host.Outcome State Fault Refusal :=
  .next (if s.cfg.nchMax ≤ ch then s.fail .param else scalarRescale (pcMultAt s ch) (pcShiftAt s ch) a s)

/-! ### RQM -/

/-- `chan(i) = (ch0 + floor(i / run)) mod nch` (R128). -/
def rqmChan (g : Regs) (i : Nat) : Nat := (u32 g.rqCh0 + i / u32 g.rqRun) % u32 g.rqNch

/-- The multiplier of element `i` (R128). -/
def rqmMult (perch : Bool) (s : State) (i : Nat) : Int :=
  if perch then s32 (pcMultAt s (rqmChan s.regs i)) else s32 s.regs.qmult

/-- The shift of element `i` (R128). -/
def rqmShift (perch : Bool) (s : State) (i : Nat) : Int :=
  if perch then s32 (pcShiftAt s (rqmChan s.regs i)) else s32 s.regs.qshift

/-- The address of accumulator `i`: `wrap32(src + i·ss)` (R77, R128). -/
def rqmSrcAddr (g : Regs) (i : Nat) : Nat := wrap32 (u32 g.rqSrc + i * u32 g.rqSstr)

/-- The address of output `i`: `wrap32(dst + i·ds)` (R77, R128). -/
def rqmDstAddr (g : Regs) (i : Nat) : Nat := wrap32 (u32 g.rqDst + i * u32 g.rqDstr)

/-- A base or a stride is not a multiple of its access width (R74, R128). -/
def rqmMisaligned (a : AccWidth) (fmt : OutFmt) (g : Regs) : Bool :=
  decide (u32 g.rqSrc % accBytes a ≠ 0 ∨ u32 g.rqSstr % accBytes a ≠ 0
    ∨ u32 g.rqDst % outBytes fmt ≠ 0 ∨ u32 g.rqDstr % outBytes fmt ≠ 0)

/-- `run = 0 or nch = 0 or nch > NCH_MAX or ch0 ≥ nch` (R128). -/
def rqmChannelsBad (p : Params) (g : Regs) : Bool :=
  decide (u32 g.rqRun = 0 ∨ u32 g.rqNch = 0 ∨ p.nchMax < u32 g.rqNch ∨ u32 g.rqNch ≤ u32 g.rqCh0)

/-- Some `i < n` has `p i`: the form of RQM's checks over the channel set `U` (R128). -/
def someBelow (p : Nat → Bool) : Nat → Bool
  | 0 => false
  | n + 1 => someBelow p n || p n

/-- RQM's checks of the multiplier and shift (R128): per tensor those of QMULT and QSHIFT; per channel first RUN, NCH and CH0, then every used multiplier, then every used shift. -/
def rqmCheckScale (perch : Bool) (s : State) : Option ErrCode :=
  if perch then
    if rqmChannelsBad s.cfg s.regs then some .param
    else if someBelow (fun i => decide (rqmMult true s i < 0)) (u32 s.regs.rqCnt) then some .param
    else if someBelow (fun i => shiftBad (rqmShift true s i)) (u32 s.regs.rqCnt) then some .shift
    else none
  else if s32 s.regs.qmult < 0 then some .param
  else if shiftBad (s32 s.regs.qshift) then some .shift
  else none

/-- RQM's checks in their order (R128, R222): the code of the first that fails, or the format. -/
def rqmCheck (perch : Bool) (a : AccWidth) (s : State) : Except ErrCode OutFmt :=
  match outFmtOf s.regs.qfmt with
  | none => .error .param
  | some fmt =>
    if s.regs.rqSrc = 0 ∨ s.regs.rqDst = 0 then .error .null
    else if rqmMisaligned a fmt s.regs then .error .align
    else
      match rqmCheckScale perch s with
      | some e => .error e
      | none => if zpBad (s32 s.regs.qzp) fmt then .error .zp else .ok fmt

/-- The output of element `i` when memory is `m` as the element is read (R128). -/
def rqmOutput (perch : Bool) (a : AccWidth) (fmt : OutFmt) (s : State) (m : Memory) (i : Nat) : Int :=
  rescale s.cfg (accValue a (memRead m (rqmSrcAddr s.regs i) (accBytes a))) (rqmMult perch s i)
    (rqmShift perch s i) (s32 s.regs.qzp) fmt

/-- Element `i` of RQM: its read, then its write (R80(1), R128). -/
def rqmElement (perch : Bool) (a : AccWidth) (fmt : OutFmt) (s : State) (m : Memory) (i : Nat) :
    Except Stop Memory :=
  match busRead s.cfg m (rqmSrcAddr s.regs i) (accBytes a) with
  | .error st => .error st
  | .ok v =>
    busWrite s.cfg m (rqmDstAddr s.regs i) (outBytes fmt)
      (rescale s.cfg (accValue a v) (rqmMult perch s i) (rqmShift perch s i) (s32 s.regs.qzp) fmt)

/-- The first `n` elements of RQM, in increasing index (R80(1), R128). -/
def rqmElements (perch : Bool) (a : AccWidth) (fmt : OutFmt) (s : State) : Nat → Except Stop Memory
  | 0 => .ok s.mem
  | n + 1 =>
    match rqmElements perch a fmt s n with
    | .error st => .error st
    | .ok m => rqmElement perch a fmt s m n

/-- RQM (R128). -/
def execRqm (perch : Bool) (a : AccWidth) (s : State) : Host.Outcome State Fault Refusal :=
  match rqmCheck perch a s with
  | .error e => .next (s.fail e)
  | .ok fmt =>
    match rqmElements perch a fmt s (u32 s.regs.rqCnt) with
    | .error st => st.outcome
    | .ok m => .next (State.succeed { s with mem := m })

end Sys2Proof.Machine
end

