-- ==== Sys2Proof/Machine/Registers.lean ====
section
/-! DEFINITION. The register map (spec/10_state.md R42, R43) and what a host read returns and a host write stores at each register (R22 to R41; spec/42_host_interface.md R200, R201). -/

namespace Sys2Proof.Machine

open Sys2Proof

/-- A register of the map (R42). -/
inductive Reg
  | id | cfg0 | cfg1 | status | errcode | cmd | resultLo | resultHi
  | accLo | accHi | qmult | qshift | qzp | qfmt | pcIndex | pcMult | pcShift
  | rqSrc | rqSstr | rqDst | rqDstr | rqCnt | rqCh0 | rqRun | rqNch
  | wSrc | wPitchY | wPitchX | wSrcH | wSrcW | wPadL | wPadP | wLen | wCap | wPadv | wFmt
  | wState | wHead | wCur | wValid | wTop
  | szK | szS | szD | szT | szPadded
  deriving DecidableEq, Repr

/-- The register at a byte offset (R42); `none` is a reserved offset (R43). -/
def regAt (off : BitVec 8) : Option Reg :=
  match off.toNat with
  | 0x00 => some .id
  | 0x04 => some .cfg0
  | 0x08 => some .cfg1
  | 0x0C => some .status
  | 0x10 => some .errcode
  | 0x14 => some .cmd
  | 0x18 => some .resultLo
  | 0x1C => some .resultHi
  | 0x20 => some .accLo
  | 0x24 => some .accHi
  | 0x28 => some .qmult
  | 0x2C => some .qshift
  | 0x30 => some .qzp
  | 0x34 => some .qfmt
  | 0x38 => some .pcIndex
  | 0x3C => some .pcMult
  | 0x40 => some .pcShift
  | 0x44 => some .rqSrc
  | 0x48 => some .rqSstr
  | 0x4C => some .rqDst
  | 0x50 => some .rqDstr
  | 0x54 => some .rqCnt
  | 0x58 => some .rqCh0
  | 0x5C => some .rqRun
  | 0x60 => some .rqNch
  | 0x80 => some .wSrc
  | 0x84 => some .wPitchY
  | 0x88 => some .wPitchX
  | 0x8C => some .wSrcH
  | 0x90 => some .wSrcW
  | 0x94 => some .wPadL
  | 0x98 => some .wPadP
  | 0x9C => some .wLen
  | 0xA0 => some .wCap
  | 0xA4 => some .wPadv
  | 0xA8 => some .wFmt
  | 0xAC => some .wState
  | 0xB0 => some .wHead
  | 0xB4 => some .wCur
  | 0xB8 => some .wValid
  | 0xBC => some .wTop
  | 0xC0 => some .szK
  | 0xC4 => some .szS
  | 0xC8 => some .szD
  | 0xCC => some .szT
  | 0xD0 => some .szPadded
  | _ => none

/-- The bit of RMODE in ID (R22). -/
def rmodeBit : RMode → BitVec 1
  | .double => 0
  | .single => 1

/-- ID (R22): IP_VERSION = 1 in [7:0], RMODE in [8], FRAC in [20:16]. -/
def idWord (p : Params) : Word :=
  0#11 ++ BitVec.ofNat 5 p.frac.toNat ++ 0#7 ++ rmodeBit p.rmode ++ 0x01#8

/-- CFG0 (R23): NCH_MAX - 1 in [15:0]. -/
def cfg0Word (p : Params) : Word := 0#16 ++ p.nchMaxM1

/-- CFG1 (R24): WBUF_BYTES. -/
def cfg1Word (p : Params) : Word := p.wbufBytes

/-- `w.cur = (w.head + w.valid) mod w.cap` (R45). -/
def winCur (w : Window) : Nat := (w.head + w.valid) % w.cap

/-- A window status register (R39): its view while a window is open, else 0. -/
def winView (w : Window) (v : Word) : Word := if w.isOpen then v else 0

/-- `PC_INDEX.IDX < NCH_MAX` (R35, R36). -/
def pcIndexValid (s : State) : Bool := decide (s.regs.pcIndex.toNat < s.cfg.nchMax)

/-- What a host read of a register returns (R200). -/
def readReg (r : Reg) (s : State) : Word :=
  match r with
  | .id => idWord s.cfg
  | .cfg0 => cfg0Word s.cfg
  | .cfg1 => cfg1Word s.cfg
  | .status => statusWord s.busy s.err
  | .errcode => s.errcode
  | .cmd => 0
  | .resultLo => s.resultLo
  | .resultHi => s.resultHi
  | .accLo => s.regs.accLo
  | .accHi => s.regs.accHi
  | .qmult => s.regs.qmult
  | .qshift => s.regs.qshift
  | .qzp => s.regs.qzp
  | .qfmt => 0#29 ++ s.regs.qfmt
  | .pcIndex => 0#16 ++ s.regs.pcIndex
  | .pcMult => if pcIndexValid s then pcMultAt s s.regs.pcIndex.toNat else 0
  | .pcShift => if pcIndexValid s then pcShiftAt s s.regs.pcIndex.toNat else 0
  | .rqSrc => s.regs.rqSrc
  | .rqSstr => s.regs.rqSstr
  | .rqDst => s.regs.rqDst
  | .rqDstr => s.regs.rqDstr
  | .rqCnt => s.regs.rqCnt
  | .rqCh0 => s.regs.rqCh0
  | .rqRun => s.regs.rqRun
  | .rqNch => s.regs.rqNch
  | .wSrc => s.regs.wSrc
  | .wPitchY => s.regs.wPitchY
  | .wPitchX => s.regs.wPitchX
  | .wSrcH => s.regs.wSrcH
  | .wSrcW => s.regs.wSrcW
  | .wPadL => s.regs.wPadL
  | .wPadP => s.regs.wPadP
  | .wLen => s.regs.wLen
  | .wCap => s.regs.wCap
  | .wPadv => s.regs.wPadv
  | .wFmt => 0#29 ++ s.regs.wFmt
  | .wState => winView s.win 1
  | .wHead => winView s.win (BitVec.ofNat 32 s.win.head)
  | .wCur => winView s.win (BitVec.ofNat 32 (winCur s.win))
  | .wValid => winView s.win (BitVec.ofNat 32 s.win.valid)
  | .wTop => winView s.win (BitVec.ofInt 32 s.win.top)
  | .szK => s.regs.szK
  | .szS => s.regs.szS
  | .szD => s.regs.szD
  | .szT => s.regs.szT
  | .szPadded => s.regs.szPadded

/-- A write of the value `v` to a read-write register with storage, RAZ/WI bits dropped (R201); the other registers have none. -/
def writeStored (r : Reg) (v : Word) (g : Regs) : Regs :=
  match r with
  | .accLo => { g with accLo := v }
  | .accHi => { g with accHi := v }
  | .qmult => { g with qmult := v }
  | .qshift => { g with qshift := v }
  | .qzp => { g with qzp := v }
  | .qfmt => { g with qfmt := v.extractLsb' 0 3 }
  | .pcIndex => { g with pcIndex := v.extractLsb' 0 16 }
  | .rqSrc => { g with rqSrc := v }
  | .rqSstr => { g with rqSstr := v }
  | .rqDst => { g with rqDst := v }
  | .rqDstr => { g with rqDstr := v }
  | .rqCnt => { g with rqCnt := v }
  | .rqCh0 => { g with rqCh0 := v }
  | .rqRun => { g with rqRun := v }
  | .rqNch => { g with rqNch := v }
  | .wSrc => { g with wSrc := v }
  | .wPitchY => { g with wPitchY := v }
  | .wPitchX => { g with wPitchX := v }
  | .wSrcH => { g with wSrcH := v }
  | .wSrcW => { g with wSrcW := v }
  | .wPadL => { g with wPadL := v }
  | .wPadP => { g with wPadP := v }
  | .wLen => { g with wLen := v }
  | .wCap => { g with wCap := v }
  | .wPadv => { g with wPadv := v }
  | .wFmt => { g with wFmt := v.extractLsb' 0 3 }
  | .szK => { g with szK := v }
  | .szS => { g with szS := v }
  | .szD => { g with szD := v }
  | .szT => { g with szT := v }
  | .szPadded => { g with szPadded := v }
  | .id | .cfg0 | .cfg1 | .status | .errcode | .cmd | .resultLo | .resultHi | .pcMult | .pcShift
  | .wState | .wHead | .wCur | .wValid | .wTop => g

/-- What a host write to a register other than CMD does (R201): RW registers store, PC_MULT and PC_SHIFT store into `pc_tab[IDX]` when the index is in range (R35, R36), RO registers ignore the write. -/
def writeReg (r : Reg) (v : Word) (s : State) : State :=
  match r with
  | .pcMult => if pcIndexValid s then { s with pcMult := tabSet s.pcMult s.regs.pcIndex.toNat v } else s
  | .pcShift => if pcIndexValid s then { s with pcShift := tabSet s.pcShift s.regs.pcIndex.toNat v } else s
  | r => { s with regs := writeStored r v s.regs }

end Sys2Proof.Machine
end

