-- ==== Sys2Proof/Machine/Window.lean ====
section
/-! DEFINITION. The sliding window (spec/41_window.md): geometry (R161) and the commands WINIT (R160), WADV (R162 to R164), WRD (R165), WCLOSE (R167) and SIZEQ (R170). -/

namespace Sys2Proof.Machine

open Sys2Proof

/-! ### Geometry (R161) -/

/-- `LINES`: the number of real lines. -/
def winLines (w : Window) : Int :=
  match w.orient with
  | .rows => w.h
  | .columns => w.w

/-- `POSN`: the number of real positions in a line. -/
def winPositions (w : Window) : Int :=
  match w.orient with
  | .rows => w.w
  | .columns => w.h

/-- `real(l, p)`: line `l`, position `p` is an element of the source. -/
def winReal (w : Window) (l p : Int) : Bool :=
  decide (0 ≤ l ∧ l < winLines w ∧ 0 ≤ p - w.padp ∧ p - w.padp < winPositions w)

/-- The `y` of `coord(l, p)`. -/
def winY (w : Window) (l p : Int) : Int :=
  match w.orient with
  | .rows => l
  | .columns => p - w.padp

/-- The `x` of `coord(l, p)`. -/
def winX (w : Window) (l p : Int) : Int :=
  match w.orient with
  | .rows => p - w.padp
  | .columns => l

/-- `addr(l, p)`. -/
def winAddr (w : Window) (l p : Int) : Nat :=
  wrap32 (u32 w.src + winY w l p * u32 w.py + winX w l p * u32 w.px)

/-- `cell(l, p)`: the element's bit pattern from memory, or synthesized padding with no memory access. -/
def loadCell (c : Params) (m : Memory) (w : Window) (l p : Int) : Except Stop (BitVec 16) :=
  if winReal w l p then
    match busRead c m (winAddr w l p) (elemBytes w.elem) with
    | .error st => .error st
    | .ok v => .ok (BitVec.ofNat 16 v)
  else .ok (elemBits w.elem w.padv)

/-! ### WINIT -/

/-- WINIT's checks in their order (R160): the code of the first that fails. -/
def winitCheck (c : Params) (g : Regs) : Option ErrCode :=
  let eb := elemBytes (elemOf g.wFmt)
  if g.wSrc = 0 then some .null
  else if u32 g.wSrc % eb ≠ 0 ∨ u32 g.wPitchY % eb ≠ 0 ∨ u32 g.wPitchX % eb ≠ 0 then some .align
  else if s32 g.wSrcH < 1 ∨ Config.maxDim < s32 g.wSrcH ∨ s32 g.wSrcW < 1 ∨ Config.maxDim < s32 g.wSrcW
      ∨ s32 g.wPadL < 0 ∨ Config.maxDim < s32 g.wPadL ∨ s32 g.wPadP < 0 ∨ Config.maxDim < s32 g.wPadP then
    some .param
  else if s32 g.wPadv < elemLo (elemOf g.wFmt) ∨ elemHi (elemOf g.wFmt) < s32 g.wPadv then some .zp
  else if s32 g.wCap ≤ 0 ∨ s32 g.wLen ≤ 0 ∨ Config.maxLines < s32 g.wCap ∨ Config.maxLen < s32 g.wLen
      ∨ (u32 c.wbufBytes : Int) < s32 g.wCap * s32 g.wLen * eb then
    some .size
  else none

/-- The window WINIT latches from the configuration registers (R160). -/
def winitWindow (g : Regs) : Window :=
  { isOpen := true, src := g.wSrc, py := g.wPitchY, px := g.wPitchX,
    h := (s32 g.wSrcH).toNat, w := (s32 g.wSrcW).toNat,
    padl := (s32 g.wPadL).toNat, padp := (s32 g.wPadP).toNat,
    len := (s32 g.wLen).toNat, cap := (s32 g.wCap).toNat, padv := s32 g.wPadv,
    orient := orientOf g.wFmt, elem := elemOf g.wFmt,
    head := 0, valid := 0, top := -s32 g.wPadL }

/-- WINIT (R160). The ring's contents become unspecified (R46): nothing is listed, in a new generation (log 5). -/
def execWinit (s : State) : Host.Outcome State Fault Refusal :=
  match winitCheck s.cfg s.regs with
  | some e => .next (s.fail e)
  | none =>
    .next (State.succeed { s with win := winitWindow s.regs, ring := [], ringGen := s.ringGen + 1 })

/-! ### WADV -/

/-- The first `n` cells of line `l`, in increasing position (R162). -/
def loadCells (c : Params) (m : Memory) (w : Window) (l : Int) : Nat → Except Stop (List (BitVec 16))
  | 0 => .ok []
  | n + 1 =>
    match loadCells c m w l n with
    | .error st => .error st
    | .ok line =>
      match loadCell c m w l n with
      | .error st => .error st
      | .ok b => .ok (line ++ [b])

/-- How the cursor moves when a line has been loaded: append (R163), or evict the oldest line (R164). -/
def winAdvanced (w : Window) : Window :=
  if w.valid < w.cap then { w with valid := w.valid + 1 }
  else { w with head := (w.head + 1) % w.cap, top := w.top + 1 }

/-- Load the next line at the write cursor (R162). -/
def loadNextLine (s : State) : Except Stop State :=
  match loadCells s.cfg s.mem s.win (s.win.top + s.win.valid) s.win.len with
  | .error st => .error st
  | .ok line => .ok { s with ring := tabSet s.ring (winCur s.win) line, win := winAdvanced s.win }

/-- `repeat N times` (R162). -/
def loadLines : Nat → State → Except Stop State
  | 0, s => .ok s
  | n + 1, s =>
    match loadNextLine s with
    | .error st => .error st
    | .ok t => loadLines n t

/-- WADV's checks in their order (R162). -/
def wadvCheck (n : Nat) (w : Window) : Option ErrCode :=
  if w.isOpen = false then some .state
  else if w.cap < n then some .param
  else if 2 ^ 31 - 1 < w.top + w.valid + n then some .param
  else none

/-- WADV (R162). -/
def execWadv (n : Nat) (s : State) : Host.Outcome State Fault Refusal :=
  match wadvCheck n s.win with
  | some e => .next (s.fail e)
  | none =>
    match loadLines n s with
    | .error st => st.outcome
    | .ok t => .next t.succeed

/-! ### WRD and WCLOSE -/

/-- WRD's checks in their order (R165). -/
def wrdCheck (row col : Nat) (w : Window) : Option ErrCode :=
  if w.isOpen = false then some .state
  else if w.valid ≤ row ∨ w.len ≤ col then some .param
  else none

/-- The value WRD reads (R165). -/
def winElement (s : State) (row col : Nat) : Int :=
  elemExt s.win.elem (ringCell s ((s.win.head + row) % s.win.cap) col)

/-- WRD (R165). -/
def execWrd (row col : Nat) (s : State) : Host.Outcome State Fault Refusal :=
  .next
    (match wrdCheck row col s.win with
    | some e => s.fail e
    | none => (s.setResult (winElement s row col)).succeed)

/-- WCLOSE (R167). -/
def execWclose (s : State) : Host.Outcome State Fault Refusal :=
  .next (State.succeed { s with win := { s.win with isOpen := false, head := 0, valid := 0, top := 0 } })

/-! ### SIZEQ -/

/-- `reach`: the lines one output line needs (R170). -/
def sizeqReach (g : Regs) : Int := (s32 g.szK - 1) * s32 g.szD + 1

/-- `outn`: the output lines the padded input yields; `/` rounds down, the divisor being positive (R170). -/
def sizeqOutn (g : Regs) : Int := (s32 g.szPadded - sizeqReach g) / s32 g.szS + 1

/-- `cap`: the ring capacity (R170). -/
def sizeqCap (g : Regs) : Int := (min (s32 g.szT) (sizeqOutn g) - 1) * s32 g.szS + sizeqReach g

/-- `cap·len·eb`: the bytes of ring needed (R170). -/
def sizeqBytes (g : Regs) : Int := sizeqCap g * s32 g.wLen * elemBytes (elemOf g.wFmt)

/-- SIZEQ's checks in their order (R170). -/
def sizeqCheck (c : Params) (g : Regs) : Option ErrCode :=
  if s32 g.szK < 1 ∨ s32 g.szD < 1 ∨ s32 g.szT < 1 ∨ s32 g.szPadded < 1 then some .param
  else if s32 g.szS < 1 ∨ s32 g.szK < s32 g.szS then some .stride
  else if sizeqOutn g ≤ 0 then some .size
  else if s32 g.wLen ≤ 0 ∨ Config.maxLen < s32 g.wLen ∨ Config.maxLines < sizeqCap g
      ∨ (u32 c.wbufBytes : Int) < sizeqBytes g then
    some .size
  else none

/-- SIZEQ (R170). -/
def execSizeq (s : State) : Host.Outcome State Fault Refusal :=
  .next
    (match sizeqCheck s.cfg s.regs with
    | some e => s.fail e
    | none =>
      State.succeed
        { s with resultLo := BitVec.ofInt 32 (sizeqBytes s.regs), resultHi := BitVec.ofInt 32 (sizeqCap s.regs) })

end Sys2Proof.Machine
end

