-- ==== Sys2Proof/Machine/Dispatch.lean ====
section
/-! DEFINITION. Which meaning runs for a decoded command (spec/30_encoding.md R94). -/

namespace Sys2Proof.Machine

open Sys2Proof

def exec (i : Instr) (s : State) : Host.Outcome State Fault Refusal :=
  match i with
  | .nop => Sys2Proof.Machine.execNop s
  | .rq accw => Sys2Proof.Machine.execRq accw s
  | .rqpc ch accw => Sys2Proof.Machine.execRqpc ch accw s
  | .rqm perch accw => Sys2Proof.Machine.execRqm perch accw s
  | .winit => Sys2Proof.Machine.execWinit s
  | .wadv n => Sys2Proof.Machine.execWadv n s
  | .wrd row col => Sys2Proof.Machine.execWrd row col s
  | .wclose => Sys2Proof.Machine.execWclose s
  | .sizeq => Sys2Proof.Machine.execSizeq s

end Sys2Proof.Machine
end

