-- ==== Sys2Proof/Machine/Command.lean ====
section
/-! DEFINITION. The command step (spec/42_host_interface.md R202), the host's accesses (R200, R201), and the other events from outside: memory writes (spec/20_memory.md R80) and reset (spec/70_reset_and_hazards.md R250). -/

namespace Sys2Proof.Machine

open Sys2Proof

/-- BUSY <- 0 in the state a step ends in (R202). -/
def clearBusy (o : Host.Outcome State Fault Refusal) : Host.Outcome State Fault Refusal :=
  match o with
  | .next t => .next { t with busy := false }
  | .fault r => .fault r
  | .refused r => .refused r

/-- The command step (R202): BUSY <- 1, decode, then fail with ERR_ILLEGAL (R95) or run the command, BUSY <- 0. -/
def commandStep (x : Word) (s : State) : Host.Outcome State Fault Refusal :=
  match decode x with
  | .error _ => clearBusy (.next ({ s with busy := true }.fail .illegal))
  | .ok i => clearBusy (exec i { s with busy := true })

/-- The offset of CMD (R27). -/
def cmdOffset : BitVec 8 := 0x14

/-- The access is 32 bits wide and 4-byte aligned (R200, R201). -/
def accessDefined (width : AccessWidth) (off : BitVec 8) : Bool :=
  (width == .word) && (off.toNat % 4 == 0)

/-- A host read (R200): the value goes to the host; a reserved offset reads 0 (R43). -/
def hostRead (off : BitVec 8) (s : State) : State :=
  { s with rdata := match regAt off with
                    | some r => readReg r s
                    | none => 0 }

/-- A host write (R201): CMD runs a command; a reserved offset does nothing (R43). -/
def hostWrite (off : BitVec 8) (v : Word) (s : State) : Host.Outcome State Fault Refusal :=
  match regAt off with
  | some .cmd => commandStep v s
  | some r => .next (writeReg r v s)
  | none => .next s

/-- Another agent writes one byte of ordinary memory (R80; log 12). -/
def hostMemWrite (addr : Word) (b : Byte) (s : State) : Host.Outcome State Fault Refusal :=
  match busStop1 s.cfg addr.toNat with
  | some _ => .refused (.notOrdinaryMemory addr.toNat)
  | none => .next { s with mem := memWrite1 s.mem addr.toNat b }

/-- Reset (R49, R250): every register and the window as after reset, `pc_tab` and ring unspecified again; memory, the build parameters and what lies outside the block are not touched. -/
def hostReset (s : State) : State :=
  { State.reset with
    cfg := s.cfg, mem := s.mem, pending := s.pending, rdata := s.rdata,
    pcGen := s.pcGen + 1, ringGen := s.ringGen + 1 }

/-- What may happen while BUSY = 1: a read of STATUS (R260), and nothing else the model makes a claim about (U5, U8). -/
def allowedWhileBusy : HostOp → Bool
  | .read .word off => off == 0x0C
  | _ => false

/-- One event from outside. -/
def hostOp (op : HostOp) (s : State) : Host.Outcome State Fault Refusal :=
  if s.busy && !allowedWhileBusy op then .refused .hostAccessWhileBusy
  else
    match op with
    | .read width off =>
      if accessDefined width off then .next (hostRead off s) else .refused (.hostAccessShape off)
    | .write width off v =>
      if accessDefined width off then hostWrite off v s else .refused (.hostAccessShape off)
    | .memWrite addr b => hostMemWrite addr b s
    | .reset => .next (hostReset s)

/-- One step: the next event from outside; with none the block is idle and nothing changes (R235, R252). -/
def hostStep (s : State) : Host.Outcome State Fault Refusal :=
  match s.pending with
  | [] => .next s
  | op :: rest => hostOp op { s with pending := rest }

/-- The event of a host that writes the command word `x` to CMD. -/
def cmdWrite (x : Word) : HostOp := .write .word cmdOffset x

end Sys2Proof.Machine
end

