-- ==== Sys2Proof/Machine/Step.lean ====
section
/-! DEFINITION. One step of the machine is one event from outside (spec/00_scope.md R6, spec/42_host_interface.md R202), and how a command word is put where the next step runs it. -/

namespace Sys2Proof.Machine

open Sys2Proof

/-- One step. -/
def step (s : State) : Host.Outcome State Fault Refusal := hostStep s

/-- `s` with BUSY = 0 and a host about to write the command word `w` to CMD. QRSW fetches nothing (R21, R84): a command is the word the host writes (R27), so this is where the next command comes from (logs 2, 20). -/
def State.withFetchWord (s : State) (nbits w : Nat) : State :=
  { s with busy := false, pending := cmdWrite (BitVec.ofNat 32 (w % 2 ^ nbits)) :: s.pending }

end Sys2Proof.Machine
end

