-- ==== Sys2Proof/Safety.lean ====
section
/-! DEFINITION. What holds of every state a run reaches (spec/10_state.md R25, R26, R40, R45 to R47), and what a safe run is. -/

namespace Sys2Proof

open Sys2Proof.Machine

/-- The bounds of an open window: those WINIT checked (R160) and those of R47. -/
structure OpenBounds (c : Params) (w : Window) : Prop where
  src_nonnull : w.src ≠ 0
  src_aligned : u32 w.src % elemBytes w.elem = 0
  py_aligned : u32 w.py % elemBytes w.elem = 0
  px_aligned : u32 w.px % elemBytes w.elem = 0
  h_range : 1 ≤ w.h ∧ w.h ≤ 65535
  w_range : 1 ≤ w.w ∧ w.w ≤ 65535
  padl_range : w.padl ≤ 65535
  padp_range : w.padp ≤ 65535
  len_range : 1 ≤ w.len ∧ w.len ≤ 4096
  cap_range : 1 ≤ w.cap ∧ w.cap ≤ 4096
  fits : w.cap * w.len * elemBytes w.elem ≤ u32 c.wbufBytes
  padv_range : elemLo w.elem ≤ w.padv ∧ w.padv ≤ elemHi w.elem
  head_lt : w.head < w.cap
  valid_le : w.valid ≤ w.cap
  top_ge : -(w.padl : Int) ≤ w.top
  top_le : w.top + w.valid ≤ 2 ^ 31 - 1

/-- Every resident slot of the ring has been loaded with a whole line (R46: WRD reads only what WADV has written). -/
def ResidentLoaded (s : State) : Prop :=
  ∀ r, r < s.win.valid →
    ∃ line, tabGet s.ring ((s.win.head + r) % s.win.cap) = some line ∧ line.length = s.win.len

/-- Every resident line holds what its cells are in memory now (R47, R161): true right after the line was loaded, and as long as memory does not change (R85). -/
def WindowHolds (s : State) : Prop :=
  ∀ r p : Nat, r < s.win.valid → p < s.win.len →
    loadCell s.cfg s.mem s.win (s.win.top + r) p = .ok (ringCell s ((s.win.head + r) % s.win.cap) p)

/-- The invariant of the machine between two steps. -/
structure Inv (s : State) : Prop where
  /-- The build parameters are in their ranges (R8). -/
  params_wf : s.cfg.wf = true
  /-- BUSY is 1 only inside a step (R202). -/
  idle : s.busy = false
  /-- ERR always equals (ERRCODE ≠ 0) (R25). -/
  err_iff : s.err = true ↔ s.errcode ≠ 0
  /-- ERRCODE takes exactly the values of R220. -/
  errcode_legal : s.errcode = 0 ∨ ∃ c, s.errcode = errWord c
  /-- Memory is in its canonical form. -/
  mem_wf : Memory.wf s.mem = true
  /-- `pc_tab` has NCH_MAX entries (R40). -/
  pcMult_wf : tabWfFrom 0 s.cfg.nchMax s.pcMult = true
  pcShift_wf : tabWfFrom 0 s.cfg.nchMax s.pcShift = true
  /-- While a window is open its bounds hold (R47), and its ring holds the resident lines, in slots below W_CAP. -/
  open_bounds : s.win.isOpen = true → OpenBounds s.cfg s.win
  open_loaded : s.win.isOpen = true → ResidentLoaded s
  open_ring : s.win.isOpen = true → tabWfFrom 0 s.win.cap s.ring = true
  /-- While none is open nothing is resident (R49, R167). -/
  closed_empty : s.win.isOpen = false → s.win.head = 0 ∧ s.win.valid = 0 ∧ s.win.top = 0

/-- A safe run of `k` steps: no fault and no refusal. -/
def SafeRun (k : Nat) (s : State) : Prop := ∃ t, core.run k s = .next t

end Sys2Proof
end

