-- ==== Sys2Proof/Certificates/Slice0/Obligations.lean ====
section
/-! DEFINITION. The statements for the provers, from the numbered rules of spec/. Titles, texts and rules stand in OBLIGATIONS.json. -/

open Sys2Proof Sys2Proof.Machine

namespace Sys2Proof.Statement

/-! ### Words the statements share -/

/-- `s` after `raise Fail(code)`: ERRCODE and STATUS.ERR, nothing else (R15). -/
def failed (s : State) (code : Int) : State := { s with errcode := BitVec.ofInt 32 code, err := true }

/-- `s` after `succeed` (R16). -/
def completed (s : State) : State := { s with errcode := 0, err := false }

/-- The host is about to make the access `op`, and the block is idle. -/
def about (s : State) (op : HostOp) (rest : List HostOp) : State := { s with busy := false, pending := op :: rest }

/-- A host read of the word at `off` returns `v` and changes nothing in the block. -/
def readsAs (s : State) (off : BitVec 8) (v : Word) : Prop :=
  ∀ rest, step (about s (.read .word off) rest) = .next { s with busy := false, pending := rest, rdata := v }

/-- A host write of `v` to the word at `off` changes the read-write registers to `g` and nothing else. -/
def stores (s : State) (off : BitVec 8) (v : Word) (g : Regs) : Prop :=
  ∀ rest, step (about s (.write .word off v) rest) = .next { s with busy := false, pending := rest, regs := g }

/-- `ACCW` of a command word (R93). -/
def accw (x : Word) : AccWidth := if x.getLsbD 0 then .acc64 else .acc32

/-- The words that match `(x & mask) = value`, and no others, are the words of the command `i`, whose fields `i x` reads from the word (R92 to R94). -/
def encodedBy (mask value : Word) (i : Word → Instr) : Prop :=
  ∀ x : Word, x &&& mask = value ↔ decode x = .ok (i x)

/-- The word `x` matches no row of R94. -/
def matchesNoRow (x : Word) : Prop :=
  x &&& 0xFFFFFFFF ≠ 0x00000000 ∧ x &&& 0xFFFFFFFE ≠ 0x01000000 ∧ x &&& 0xFF0000FE ≠ 0x02000000 ∧
  x &&& 0xFFFFFFFC ≠ 0x03000000 ∧ x &&& 0xFFFFFFFF ≠ 0x10000000 ∧ x &&& 0xFFFF0000 ≠ 0x11000000 ∧
  x &&& 0xFF000000 ≠ 0x12000000 ∧ x &&& 0xFFFFFFFF ≠ 0x13000000 ∧ x &&& 0xFFFFFFFF ≠ 0x14000000

/-- The registers with storage that the host can write (R42). -/
def isStored : Reg → Bool
  | .id | .cfg0 | .cfg1 | .status | .errcode | .cmd | .resultLo | .resultHi | .pcMult | .pcShift
  | .wState | .wHead | .wCur | .wValid | .wTop => false
  | _ => true

/-- The bits of a register with storage that are not RAZ/WI (R33, R34, R38). -/
def storedMask : Reg → Word
  | .qfmt => 0x00000007
  | .pcIndex => 0x0000FFFF
  | .wFmt => 0x00000007
  | _ => 0xFFFFFFFF

/-- What R126 and R127 say of a scalar rescale once its accumulator, multiplier and shift are known: the checks of R124 in their order, else RESULT holds `Rescale`, and nothing else changes. -/
def scalarRescaleSpec (i : Instr) (acc m sh : Int) (s : State) : Prop :=
  (outFmtOf s.regs.qfmt = none → exec i s = .next (failed s (-3))) ∧
  ∀ fmt, outFmtOf s.regs.qfmt = some fmt →
    (m < 0 → exec i s = .next (failed s (-3))) ∧
    (0 ≤ m → (sh < -31 ∨ 31 < sh) → exec i s = .next (failed s (-4))) ∧
    (0 ≤ m → -31 ≤ sh → sh ≤ 31 → (s.regs.qzp.toInt < outMin fmt ∨ outMax fmt < s.regs.qzp.toInt) →
      exec i s = .next (failed s (-5))) ∧
    (0 ≤ m → -31 ≤ sh → sh ≤ 31 → outMin fmt ≤ s.regs.qzp.toInt → s.regs.qzp.toInt ≤ outMax fmt →
      ∃ lo hi, exec i s = .next { completed s with resultLo := lo, resultHi := hi } ∧
        (hi ++ lo).toInt = rescale s.cfg acc m sh s.regs.qzp.toInt fmt)

/-- The accumulator operand (R29). -/
def accumulator (a : AccWidth) (g : Regs) : Int :=
  match a with
  | .acc32 => g.accLo.toInt
  | .acc64 => (g.accHi ++ g.accLo).toInt

/-- `chan(i)` (R128). -/
def channel (g : Regs) (i : Nat) : Nat := (g.rqCh0.toNat + i / g.rqRun.toNat) % g.rqNch.toNat

/-- The multiplier of RQM's element `i` (R128). -/
def elementMult (perch : Bool) (s : State) (i : Nat) : Int :=
  match perch with
  | false => s.regs.qmult.toInt
  | true => (pcMultAt s (channel s.regs i)).toInt

/-- The shift of RQM's element `i` (R128). -/
def elementShift (perch : Bool) (s : State) (i : Nat) : Int :=
  match perch with
  | false => s.regs.qshift.toInt
  | true => (pcShiftAt s (channel s.regs i)).toInt

/-- Neither buffer pointer is null (R73). -/
def rqmPointers (g : Regs) : Prop := g.rqSrc ≠ 0 ∧ g.rqDst ≠ 0

/-- Bases and strides are multiples of the access widths (R74). -/
def rqmAligned (a : AccWidth) (fmt : OutFmt) (g : Regs) : Prop :=
  g.rqSrc.toNat % accBytes a = 0 ∧ g.rqSstr.toNat % accBytes a = 0 ∧
  g.rqDst.toNat % outBytes fmt = 0 ∧ g.rqDstr.toNat % outBytes fmt = 0

/-- RUN, NCH and CH0 are consistent where they are used (R128). -/
def rqmChannels (perch : Bool) (s : State) : Prop :=
  perch = true →
    s.regs.rqRun ≠ 0 ∧ s.regs.rqNch ≠ 0 ∧ s.regs.rqNch.toNat ≤ s.cfg.nchMax ∧ s.regs.rqCh0.toNat < s.regs.rqNch.toNat

/-- Every multiplier RQM uses is legal: QMULT itself per tensor, those of the channel set per channel (R128). -/
def rqmMults (perch : Bool) (s : State) : Prop :=
  match perch with
  | false => 0 ≤ s.regs.qmult.toInt
  | true => ∀ i, i < s.regs.rqCnt.toNat → 0 ≤ elementMult true s i

/-- Every shift RQM uses is legal (R128). -/
def rqmShifts (perch : Bool) (s : State) : Prop :=
  match perch with
  | false => -31 ≤ s.regs.qshift.toInt ∧ s.regs.qshift.toInt ≤ 31
  | true => ∀ i, i < s.regs.rqCnt.toNat → -31 ≤ elementShift true s i ∧ elementShift true s i ≤ 31

/-- The zero-point is in the format's range (R124). -/
def zeroPoint (fmt : OutFmt) (s : State) : Prop :=
  outMin fmt ≤ s.regs.qzp.toInt ∧ s.regs.qzp.toInt ≤ outMax fmt

/-- All of RQM's checks pass, with the output format `fmt` (R128). -/
def rqmReady (perch : Bool) (a : AccWidth) (fmt : OutFmt) (s : State) : Prop :=
  outFmtOf s.regs.qfmt = some fmt ∧ rqmPointers s.regs ∧ rqmAligned a fmt s.regs ∧ rqmChannels perch s ∧
  rqmMults perch s ∧ rqmShifts perch s ∧ zeroPoint fmt s

/-- Every access RQM makes falls on ordinary memory (R76, R79). -/
def rqmOrdinary (a : AccWidth) (fmt : OutFmt) (s : State) : Prop :=
  ∀ i, i < s.regs.rqCnt.toNat →
    busStop s.cfg (rqmSrcAddr s.regs i) (accBytes a) = none ∧
    busStop s.cfg (rqmDstAddr s.regs i) (outBytes fmt) = none

/-- RQM's output for element `i` if the accumulators are read from the memory `m` (R128). -/
def elementOutput (perch : Bool) (a : AccWidth) (fmt : OutFmt) (s : State) (m : Memory) (i : Nat) : Int :=
  rescale s.cfg (accValue a (memRead m (rqmSrcAddr s.regs i) (accBytes a))) (elementMult perch s i)
    (elementShift perch s i) s.regs.qzp.toInt fmt

/-- The bytes `a` of one region and `b` of another share no address. -/
def apart (a n b k : Nat) : Prop := a + n ≤ b ∨ b + k ≤ a

/-- The value of the padded input at line `l`, position `p` (R166). -/
def paddedInput (s : State) (l p : Int) : Int :=
  if winReal s.win l p then
    elemExt s.win.elem (BitVec.ofNat 16 (memRead s.mem (winAddr s.win l p) (elemBytes s.win.elem)))
  else s.win.padv

/-- The command `i` has no next state: `st` says whether it is stuck (R79) or outside the model (U6), and at which byte. -/
def stopsWith (i : Instr) (s : State) (st : Stop) : Prop :=
  (∀ r, st = .fault r → exec i s = .fault r) ∧ (∀ r, st = .refused r → exec i s = .refused r)

/-- WADV makes a memory access for position `p` of the `j`-th line it loads, and `st` stands in its way (R161, R162). -/
def wadvStop (s : State) (j p : Nat) : Option Stop :=
  if winReal s.win (s.win.top + s.win.valid + j) p then
    busStop s.cfg (winAddr s.win (s.win.top + s.win.valid + j) p) (elemBytes s.win.elem)
  else none

/-- Which commands raise which status code (R220). -/
def mayRaise : Instr → List Int
  | .nop => []
  | .rq _ => [-3, -4, -5]
  | .rqpc _ _ => [-3, -4, -5]
  | .rqm _ _ => [-1, -2, -3, -4, -5]
  | .winit => [-1, -2, -3, -5, -7]
  | .wadv _ => [-3, -9]
  | .wrd _ _ => [-3, -9]
  | .wclose => []
  | .sizeq => [-3, -6, -7]

end Sys2Proof.Statement

open Sys2Proof.Statement

/-! ### Encoding -/

/-- The decode vectors X1 to X20 of spec/95_test_vectors.md section L2.6. -/
def Obligations.SampleWordsDecode : Prop :=
  decode 0x00000000 = .ok .nop ∧ decode 0x01000000 = .ok (.rq .acc32) ∧ decode 0x01000001 = .ok (.rq .acc64) ∧
  decode 0x02000300 = .ok (.rqpc 3 .acc32) ∧ decode 0x02000301 = .ok (.rqpc 3 .acc64) ∧
  decode 0x02FFFF00 = .ok (.rqpc 65535 .acc32) ∧ decode 0x03000003 = .ok (.rqm true .acc64) ∧
  decode 0x10000000 = .ok .winit ∧ decode 0x1100FFFF = .ok (.wadv 65535) ∧ decode 0x12002005 = .ok (.wrd 2 5) ∧
  decode 0x12FFFFFF = .ok (.wrd 4095 4095) ∧ decode 0x13000000 = .ok .wclose ∧ decode 0x14000000 = .ok .sizeq ∧
  decode 0x00000001 = .error .reservedBits ∧ decode 0x01000002 = .error .reservedBits ∧
  decode 0x02000102 = .error .reservedBits ∧ decode 0x03000004 = .error .reservedBits ∧
  decode 0x10000001 = .error .reservedBits ∧ decode 0x11010000 = .error .reservedBits ∧
  decode 0x05000000 = .error .reservedOpcode ∧ decode 0x15000000 = .error .reservedOpcode ∧
  decode 0x30000004 = .error .reservedOpcode ∧ decode 0xFF000000 = .error .reservedOpcode

/-- Every command whose operands fit their fields is read back from its own word. -/
def Obligations.DecodeOfEncodeIsIdentity : Prop := ∀ i : Instr, i.wf = true → decode (encode i) = .ok i

/-- Every legal word is the encoding of the one command it decodes to. -/
def Obligations.EncodeOfDecodeIsIdentity : Prop :=
  ∀ (x : Word) (i : Instr), decode x = .ok i → i.wf = true ∧ encode i = x

/-- R94, R93: a word encodes a command exactly when it matches the command's row, with the fields of R93; so at most one row matches. -/
def Obligations.WordEncodesExactlyTheRowItMatches : Prop :=
  encodedBy 0xFFFFFFFF 0x00000000 (fun _ => .nop) ∧
  encodedBy 0xFFFFFFFE 0x01000000 (fun x => .rq (accw x)) ∧
  encodedBy 0xFF0000FE 0x02000000 (fun x => .rqpc (x.extractLsb' 8 16).toNat (accw x)) ∧
  encodedBy 0xFFFFFFFC 0x03000000 (fun x => .rqm (x.getLsbD 1) (accw x)) ∧
  encodedBy 0xFFFFFFFF 0x10000000 (fun _ => .winit) ∧
  encodedBy 0xFFFF0000 0x11000000 (fun x => .wadv (x.extractLsb' 0 16).toNat) ∧
  encodedBy 0xFF000000 0x12000000 (fun x => .wrd (x.extractLsb' 12 12).toNat (x.extractLsb' 0 12).toNat) ∧
  encodedBy 0xFFFFFFFF 0x13000000 (fun _ => .wclose) ∧
  encodedBy 0xFFFFFFFF 0x14000000 (fun _ => .sizeq)

/-! ### The command step and the host's accesses -/

/-- R202: the CMD write decodes its word and, with BUSY = 1, fails with ERR_ILLEGAL or runs the command; BUSY is 0 again when the step ends. That a stopped command stops the step is the model's treatment of R79 and U6 (logs 10, 11). -/
def Obligations.CmdWriteRunsTheDecodedCommand : Prop :=
  ∀ (s : State) (rest : List HostOp) (x : Word),
    (∀ e, decode x = .error e →
      step (about s (.write .word 0x14 x) rest) = .next { failed s (-8) with busy := false, pending := rest }) ∧
    ∀ i, decode x = .ok i →
      (∀ t, exec i { s with pending := rest, busy := true } = .next t →
        step (about s (.write .word 0x14 x) rest) = .next { t with busy := false }) ∧
      (∀ r, exec i { s with pending := rest, busy := true } = .fault r →
        step (about s (.write .word 0x14 x) rest) = .fault r) ∧
      (∀ r, exec i { s with pending := rest, busy := true } = .refused r →
        step (about s (.write .word 0x14 x) rest) = .refused r)

/-- R95: a word that matches no row fails with ERR_ILLEGAL and has no other effect. -/
def Obligations.IllegalWordOnlyRecordsErrIllegal : Prop :=
  ∀ (s : State) (rest : List HostOp) (x : Word), matchesNoRow x →
    step (about s (.write .word 0x14 x) rest) = .next { failed s (-8) with busy := false, pending := rest }

/-- R235, R252: with no event from outside, nothing changes. That the outside events stand in a list of the state is the model's choice (log 2). -/
def Obligations.IdleBlockDoesNotChange : Prop := ∀ s : State, s.pending = [] → step s = .next s

/-- R42, R22 to R41, R200: what a host read returns at each offset of the register map. -/
def Obligations.RegisterMapReads : Prop :=
  ∀ s : State,
    readsAs s 0x00 (idWord s.cfg) ∧ readsAs s 0x04 (cfg0Word s.cfg) ∧ readsAs s 0x08 s.cfg.wbufBytes ∧
    readsAs s 0x0C (if s.err then 2 else 0) ∧ readsAs s 0x10 s.errcode ∧ readsAs s 0x14 0 ∧
    readsAs s 0x18 s.resultLo ∧ readsAs s 0x1C s.resultHi ∧ readsAs s 0x20 s.regs.accLo ∧
    readsAs s 0x24 s.regs.accHi ∧ readsAs s 0x28 s.regs.qmult ∧ readsAs s 0x2C s.regs.qshift ∧
    readsAs s 0x30 s.regs.qzp ∧ readsAs s 0x34 (0#29 ++ s.regs.qfmt) ∧ readsAs s 0x38 (0#16 ++ s.regs.pcIndex) ∧
    readsAs s 0x44 s.regs.rqSrc ∧ readsAs s 0x48 s.regs.rqSstr ∧ readsAs s 0x4C s.regs.rqDst ∧
    readsAs s 0x50 s.regs.rqDstr ∧ readsAs s 0x54 s.regs.rqCnt ∧ readsAs s 0x58 s.regs.rqCh0 ∧
    readsAs s 0x5C s.regs.rqRun ∧ readsAs s 0x60 s.regs.rqNch ∧ readsAs s 0x80 s.regs.wSrc ∧
    readsAs s 0x84 s.regs.wPitchY ∧ readsAs s 0x88 s.regs.wPitchX ∧ readsAs s 0x8C s.regs.wSrcH ∧
    readsAs s 0x90 s.regs.wSrcW ∧ readsAs s 0x94 s.regs.wPadL ∧ readsAs s 0x98 s.regs.wPadP ∧
    readsAs s 0x9C s.regs.wLen ∧ readsAs s 0xA0 s.regs.wCap ∧ readsAs s 0xA4 s.regs.wPadv ∧
    readsAs s 0xA8 (0#29 ++ s.regs.wFmt) ∧ readsAs s 0xC0 s.regs.szK ∧ readsAs s 0xC4 s.regs.szS ∧
    readsAs s 0xC8 s.regs.szD ∧ readsAs s 0xCC s.regs.szT ∧ readsAs s 0xD0 s.regs.szPadded

/-- R39: the window status registers are views of the latched window, read 0 while none is open and after reset, and ignore writes. -/
def Obligations.WindowStatusRegistersViewTheWindow : Prop :=
  ∀ (s : State) (rest : List HostOp) (v : Word),
    (s.win.isOpen = true →
      readsAs s 0xAC 1 ∧ readsAs s 0xB0 (BitVec.ofNat 32 s.win.head) ∧
      readsAs s 0xB4 (BitVec.ofNat 32 ((s.win.head + s.win.valid) % s.win.cap)) ∧
      readsAs s 0xB8 (BitVec.ofNat 32 s.win.valid) ∧ readsAs s 0xBC (BitVec.ofInt 32 s.win.top)) ∧
    (s.win.isOpen = false →
      readsAs s 0xAC 0 ∧ readsAs s 0xB0 0 ∧ readsAs s 0xB4 0 ∧ readsAs s 0xB8 0 ∧ readsAs s 0xBC 0) ∧
    (∃ t, step (about s .reset rest) = .next t ∧
      readsAs t 0xAC 0 ∧ readsAs t 0xB0 0 ∧ readsAs t 0xB4 0 ∧ readsAs t 0xB8 0 ∧ readsAs t 0xBC 0) ∧
    stores s 0xAC v s.regs ∧ stores s 0xB0 v s.regs ∧ stores s 0xB4 v s.regs ∧ stores s 0xB8 v s.regs ∧
    stores s 0xBC v s.regs

/-- R22, R23, R24: the fields of ID, CFG0 and CFG1; no write, no reset and no other step changes them. -/
def Obligations.IdentificationRegistersReportTheBuild : Prop :=
  ∀ s : State,
    (∃ id cfg0 : Word, readsAs s 0x00 id ∧ readsAs s 0x04 cfg0 ∧ readsAs s 0x08 s.cfg.wbufBytes ∧
      id.extractLsb' 0 8 = 0x01 ∧ (id.getLsbD 8 = true ↔ s.cfg.rmode = .single) ∧ id.extractLsb' 9 7 = 0 ∧
      (id.extractLsb' 16 5).toNat = s.cfg.frac.toNat ∧ id.extractLsb' 21 11 = 0 ∧
      (cfg0.extractLsb' 0 16).toNat + 1 = s.cfg.nchMax ∧ cfg0.extractLsb' 16 16 = 0) ∧
    (∀ v, stores s 0x00 v s.regs ∧ stores s 0x04 v s.regs ∧ stores s 0x08 v s.regs) ∧
    ∀ t, step s = .next t → readReg .id t = readReg .id s ∧ readReg .cfg0 t = readReg .cfg0 s ∧
      readReg .cfg1 t = readReg .cfg1 s

/-- R201: a host write to a read-write register stores the value, without the RAZ/WI bits, and changes nothing else. -/
def Obligations.RegisterMapWrites : Prop :=
  ∀ (s : State) (v : Word),
    stores s 0x20 v { s.regs with accLo := v } ∧ stores s 0x24 v { s.regs with accHi := v } ∧
    stores s 0x28 v { s.regs with qmult := v } ∧ stores s 0x2C v { s.regs with qshift := v } ∧
    stores s 0x30 v { s.regs with qzp := v } ∧ stores s 0x34 v { s.regs with qfmt := v.extractLsb' 0 3 } ∧
    stores s 0x38 v { s.regs with pcIndex := v.extractLsb' 0 16 } ∧
    stores s 0x44 v { s.regs with rqSrc := v } ∧ stores s 0x48 v { s.regs with rqSstr := v } ∧
    stores s 0x4C v { s.regs with rqDst := v } ∧ stores s 0x50 v { s.regs with rqDstr := v } ∧
    stores s 0x54 v { s.regs with rqCnt := v } ∧ stores s 0x58 v { s.regs with rqCh0 := v } ∧
    stores s 0x5C v { s.regs with rqRun := v } ∧ stores s 0x60 v { s.regs with rqNch := v } ∧
    stores s 0x80 v { s.regs with wSrc := v } ∧ stores s 0x84 v { s.regs with wPitchY := v } ∧
    stores s 0x88 v { s.regs with wPitchX := v } ∧ stores s 0x8C v { s.regs with wSrcH := v } ∧
    stores s 0x90 v { s.regs with wSrcW := v } ∧ stores s 0x94 v { s.regs with wPadL := v } ∧
    stores s 0x98 v { s.regs with wPadP := v } ∧ stores s 0x9C v { s.regs with wLen := v } ∧
    stores s 0xA0 v { s.regs with wCap := v } ∧ stores s 0xA4 v { s.regs with wPadv := v } ∧
    stores s 0xA8 v { s.regs with wFmt := v.extractLsb' 0 3 } ∧ stores s 0xC0 v { s.regs with szK := v } ∧
    stores s 0xC4 v { s.regs with szS := v } ∧ stores s 0xC8 v { s.regs with szD := v } ∧
    stores s 0xCC v { s.regs with szT := v } ∧ stores s 0xD0 v { s.regs with szPadded := v }

/-- A written register reads back its value without the RAZ/WI bits, and no other register's reading changes (a write of PC_INDEX moves the two ports). -/
def Obligations.WrittenRegisterReadsBackAlone : Prop :=
  ∀ (s : State) (rest : List HostOp) (off : BitVec 8) (r : Reg) (v : Word), regAt off = some r → isStored r = true →
    ∃ t, step (about s (.write .word off v) rest) = .next t ∧ readReg r t = v &&& storedMask r ∧
      ∀ q, q ≠ r → (r = .pcIndex → q ≠ .pcMult ∧ q ≠ .pcShift) →
        readReg q t = readReg q { s with busy := false }

/-- R43: the reserved offsets read 0 and ignore writes, and a write has no other effect. -/
def Obligations.ReservedOffsetsReadZeroAndIgnoreWrites : Prop :=
  ∀ (s : State) (off : BitVec 8) (v : Word), off.toNat % 4 = 0 →
    ((0x64 ≤ off.toNat ∧ off.toNat ≤ 0x7C) ∨ 0xD4 ≤ off.toNat) →
    readsAs s off 0 ∧ stores s off v s.regs

/-- R201: a write to a read-only register does nothing. -/
def Obligations.ReadOnlyRegistersIgnoreWrites : Prop :=
  ∀ (s : State) (v : Word),
    stores s 0x00 v s.regs ∧ stores s 0x04 v s.regs ∧ stores s 0x08 v s.regs ∧ stores s 0x0C v s.regs ∧
    stores s 0x10 v s.regs ∧ stores s 0x18 v s.regs ∧ stores s 0x1C v s.regs ∧ stores s 0xAC v s.regs ∧
    stores s 0xB0 v s.regs ∧ stores s 0xB4 v s.regs ∧ stores s 0xB8 v s.regs ∧ stores s 0xBC v s.regs

/-- R35, R36: the two ports read and write the `pc_tab` entry PC_INDEX selects, and an index of NCH_MAX or more reads 0 and ignores writes. What an entry holds before its first write is a free value (log 4): the statement holds for each. -/
def Obligations.PerChannelPortsAccessTheSelectedEntry : Prop :=
  ∀ (s : State) (rest : List HostOp) (v : Word),
    (s.regs.pcIndex.toNat < s.cfg.nchMax →
      readsAs s 0x3C (pcMultAt s s.regs.pcIndex.toNat) ∧ readsAs s 0x40 (pcShiftAt s s.regs.pcIndex.toNat) ∧
      (∃ t, step (about s (.write .word 0x3C v) rest) = .next t ∧
        t = { s with busy := false, pending := rest, pcMult := t.pcMult } ∧
        ∀ c, pcMultAt t c = if c = s.regs.pcIndex.toNat then v else pcMultAt s c) ∧
      (∃ t, step (about s (.write .word 0x40 v) rest) = .next t ∧
        t = { s with busy := false, pending := rest, pcShift := t.pcShift } ∧
        ∀ c, pcShiftAt t c = if c = s.regs.pcIndex.toNat then v else pcShiftAt s c)) ∧
    (s.cfg.nchMax ≤ s.regs.pcIndex.toNat →
      readsAs s 0x3C 0 ∧ readsAs s 0x40 0 ∧ stores s 0x3C v s.regs ∧ stores s 0x40 v s.regs)

/-- U4 (R200, R201): an access that is not an aligned word is refused, which is the model's choice of treatment (log 9). -/
def Obligations.OtherAccessShapesAreRefused : Prop :=
  ∀ (s : State) (rest : List HostOp) (width : AccessWidth) (off : BitVec 8) (v : Word),
    width ≠ .word ∨ off.toNat % 4 ≠ 0 →
    step (about s (.read width off) rest) = .refused (.hostAccessShape off) ∧
    step (about s (.write width off v) rest) = .refused (.hostAccessShape off)

/-- R260, R251 (U5, U8): while BUSY = 1 a read of STATUS returns BUSY = 1, and any other access or a reset is refused, which is the model's choice of treatment (log 8). -/
def Obligations.BusyBlockAllowsOnlyStatusReads : Prop :=
  ∀ (s : State) (op : HostOp) (rest : List HostOp), s.busy = true → s.pending = op :: rest →
    (op = .read .word 0x0C → ∃ t, step s = .next t ∧ t = { s with pending := rest, rdata := t.rdata } ∧
      t.rdata.getLsbD 0 = true) ∧
    (op ≠ .read .word 0x0C → step s = .refused .hostAccessWhileBusy)

/-- R49, R250: reset puts every register at its reset value and closes the window, and leaves memory and the build parameters. What `pc_tab` and the ring hold then is unspecified, so nothing is said of it. That the event leaves the model's own fields is log 17. -/
def Obligations.ResetRestoresTheResetValues : Prop :=
  ∀ (s : State) (rest : List HostOp),
    ∃ t, step (about s .reset rest) = .next t ∧ t.busy = false ∧ t.err = false ∧ t.errcode = 0 ∧ t.resultLo = 0 ∧
      t.resultHi = 0 ∧ t.win.isOpen = false ∧ t.mem = s.mem ∧ t.cfg = s.cfg ∧ t.pending = rest ∧ t.rdata = s.rdata ∧
      ∀ r : Reg, r ≠ .id → r ≠ .cfg0 → r ≠ .cfg1 → r ≠ .pcMult → r ≠ .pcShift → readReg r t = 0

/-! ### Formats and memory -/

/-- R17: the output formats. -/
def Obligations.OutputFormatTable : Prop :=
  (outFmtOf 0 = some .s8 ∧ outFmtOf 1 = some .u8 ∧ outFmtOf 2 = some .s16 ∧ outFmtOf 3 = some .u16 ∧
    outFmtOf 4 = some .s32 ∧ outFmtOf 5 = none ∧ outFmtOf 6 = none ∧ outFmtOf 7 = none) ∧
  ∀ fmt : OutFmt, (outMin fmt, outMax fmt, outBytes fmt) =
    match fmt with
    | .s8 => (-128, 127, 1)
    | .u8 => (0, 255, 1)
    | .s16 => (-32768, 32767, 2)
    | .u16 => (0, 65535, 2)
    | .s32 => (-2147483648, 2147483647, 4)

/-- R18: the element formats, and that a stored element value reads back through its sign or zero extension. -/
def Obligations.ElementFormatTable : Prop :=
  (∀ e : Elem, (elemBytes e, elemLo e, elemHi e) =
    match e with
    | .s8 => (1, -128, 127)
    | .u8 => (1, 0, 255)
    | .s16 => (2, -32768, 32767)
    | .u16 => (2, 0, 65535)) ∧
  (∀ b : BitVec 16, elemExt .s8 b = (b.extractLsb' 0 8).toInt ∧ elemExt .u8 b = ((b.extractLsb' 0 8).toNat : Int) ∧
    elemExt .s16 b = b.toInt ∧ elemExt .u16 b = (b.toNat : Int)) ∧
  ∀ b : BitVec 3, elemOf b =
    if b.extractLsb' 1 2 = 0 then .s8 else if b.extractLsb' 1 2 = 1 then .u8
    else if b.extractLsb' 1 2 = 2 then .s16 else .u16

/-- R71: byte `addr + k` of a word in memory is its bits `[8k+7:8k]`, both ways, and a store changes no other byte. -/
def Obligations.MemoryWordsAreLittleEndian : Prop :=
  ∀ (m : Memory) (addr n : Nat) (v : Int), Memory.wf m = true → addr + n ≤ 2 ^ 32 →
    (∀ k, k < n → memRead m addr n / 256 ^ k % 256 = (memRead1 m (addr + k)).toNat) ∧
    memRead m addr n < 256 ^ n ∧
    (∀ k, k < n → ((memRead1 (memWrite m addr n v) (addr + k)).toNat : Int) = v / 256 ^ k % 256) ∧
    ∀ a, apart a 1 addr n → memRead1 (memWrite m addr n v) a = memRead1 m a

/-- R74: once a command's checks have passed, every access it makes is a multiple of its width. -/
def Obligations.CommandAccessesAreAligned : Prop :=
  (∀ (a : AccWidth) (fmt : OutFmt) (g : Regs) (i : Nat), rqmAligned a fmt g →
    rqmSrcAddr g i % accBytes a = 0 ∧ rqmDstAddr g i % outBytes fmt = 0) ∧
  ∀ (c : Params) (w : Window) (l p : Int), OpenBounds c w → winAddr w l p % elemBytes w.elem = 0

/-! ### The rescale function -/

/-- R12: rounding is to nearest with ties away from zero, odd, monotone and scales; clamp is the nearest value of the range. -/
def Obligations.RoundingIsNearestOddAndMonotone : Prop :=
  (∀ x : Int, rnda x 0 = x) ∧
  (∀ (x : Int) (n : Nat), 0 < n → 0 ≤ x →
    (rnda x n * 2 ^ n ≤ x + 2 ^ (n - 1) ∧ x + 2 ^ (n - 1) < (rnda x n + 1) * 2 ^ n)) ∧
  (∀ (x : Int) (n : Nat), rnda (-x) n = -rnda x n) ∧
  (∀ (x y : Int) (n : Nat), x ≤ y → rnda x n ≤ rnda y n) ∧
  (∀ (x : Int) (n k : Nat), k ≤ n → rnda (x * 2 ^ k) n = rnda x (n - k)) ∧
  ∀ v lo hi : Int, clamp v lo hi = min hi (max lo v)

/-- R121, R122, R123: the two rounding modes, the zero-point and the one saturation. -/
def Obligations.RescaleFollowsTheBuildsRoundingMode : Prop :=
  ∀ (p : Params) (acc m s z : Int) (fmt : OutFmt),
    (p.rmode = .double →
      rescale p acc m s z fmt =
        clamp (rnda (rnda (acc * 2 ^ (max s 0).toNat * m) p.frac.toNat) (max (-s) 0).toNat + z)
          (outMin fmt) (outMax fmt)) ∧
    (p.rmode = .single → s ≤ p.frac.toNat →
      rescale p acc m s z fmt =
        clamp (rnda (acc * m) (p.frac.toNat - s).toNat + z) (outMin fmt) (outMax fmt)) ∧
    (p.rmode = .single → p.frac.toNat < s →
      rescale p acc m s z fmt =
        clamp (acc * m * 2 ^ (s - p.frac.toNat).toNat + z) (outMin fmt) (outMax fmt))

/-- R125 items 1 and 2: the result lies in the format's range and does not decrease when the accumulator grows. -/
def Obligations.RescaleSaturatesAndIsMonotone : Prop :=
  ∀ (p : Params) (acc acc' m s z : Int) (fmt : OutFmt),
    (outMin fmt ≤ rescale p acc m s z fmt ∧ rescale p acc m s z fmt ≤ outMax fmt) ∧
    (0 ≤ m → acc ≤ acc' → rescale p acc m s z fmt ≤ rescale p acc' m s z fmt)

/-- R125 items 3 and 4: a zero accumulator or a zero multiplier gives the zero-point. -/
def Obligations.RescaleOfZeroIsTheZeroPoint : Prop :=
  ∀ (p : Params) (acc m s z : Int) (fmt : OutFmt), outMin fmt ≤ z → z ≤ outMax fmt →
    rescale p 0 m s z fmt = z ∧ rescale p acc 0 s z fmt = z

/-- R125 item 5: before the zero-point is added, the result is odd in the accumulator. -/
def Obligations.RoundedScaleIsOdd : Prop :=
  ∀ (p : Params) (acc m s : Int), roundScaled p (-acc) m s = -roundScaled p acc m s

/-- R125 item 6: the modes agree for every shift `0 ≤ s ≤ 31`, and differ at acc = 5, m = 2^30, s = -1, F = 31. -/
def Obligations.RoundingModesAgreeForLeftShifts : Prop :=
  (∀ (f : FracBits) (acc m s : Int), 0 ≤ s → s ≤ 31 →
    roundDouble f.toNat acc m s = roundSingle f.toNat acc m s) ∧
  roundDouble 31 5 (2 ^ 30) (-1) = 2 ∧ roundSingle 31 5 (2 ^ 30) (-1) = 1

/-- R125 item 7: the distance from the exact value `acc·m·2^s / 2^F`, everything multiplied by `2^(F+31)`. -/
def Obligations.RoundingErrorIsBounded : Prop :=
  ∀ (f : FracBits) (acc m s : Int), -31 ≤ s → s ≤ 31 →
    2 * (roundSingle f.toNat acc m s * 2 ^ (f.toNat + 31) - acc * m * 2 ^ (s + 31).toNat).natAbs
      ≤ 2 ^ (f.toNat + 31) ∧
    2 ^ ((-s).toNat + 1) * (roundDouble f.toNat acc m s * 2 ^ (f.toNat + 31) - acc * m * 2 ^ (s + 31).toNat).natAbs
      ≤ (2 ^ (-s).toNat + 1) * 2 ^ (f.toNat + 31)

/-- R125 item 9: with F = 31, m = 2^30 and s = 1 the scale is exactly one, in both modes. -/
def Obligations.UnitScaleIsExact : Prop :=
  ∀ acc : Int, roundDouble 31 acc (2 ^ 30) 1 = acc ∧ roundSingle 31 acc (2 ^ 30) 1 = acc

/-! ### RQ and RQPC -/

/-- R126, with the checks of R124: RQ. -/
def Obligations.RqRescalesTheAccumulatorOrFails : Prop :=
  encodedBy 0xFFFFFFFE 0x01000000 (fun x => .rq (accw x)) ∧
  ∀ (a : AccWidth) (s : State),
    scalarRescaleSpec (.rq a) (accumulator a s.regs) s.regs.qmult.toInt s.regs.qshift.toInt s

/-- R127, with the checks of R124: RQPC. What an entry holds before its first write is a free value (log 4): the statement holds for each. -/
def Obligations.RqpcRescalesWithTheChannelsEntryOrFails : Prop :=
  encodedBy 0xFF0000FE 0x02000000 (fun x => .rqpc (x.extractLsb' 8 16).toNat (accw x)) ∧
  ∀ (ch : Nat) (a : AccWidth) (s : State),
    (s.cfg.nchMax ≤ ch → exec (.rqpc ch a) s = .next (failed s (-3))) ∧
    (ch < s.cfg.nchMax →
      scalarRescaleSpec (.rqpc ch a) (accumulator a s.regs) (pcMultAt s ch).toInt (pcShiftAt s ch).toInt s)

/-- R127: RQPC does not read QMULT and QSHIFT. -/
def Obligations.RqpcIgnoresThePerTensorRegisters : Prop :=
  ∀ (ch : Nat) (a : AccWidth) (s t : State) (m sh : Word), exec (.rqpc ch a) s = .next t →
    exec (.rqpc ch a) { s with regs := { s.regs with qmult := m, qshift := sh } } =
      .next { t with regs := { t.regs with qmult := m, qshift := sh } }

/-! ### RQM -/

/-- R128: RQM's checks in their order, a failing RQM changing ERRCODE and STATUS.ERR only; and when all pass and every access falls on ordinary memory, RQM rewrites memory element by element in increasing index, each element's read seeing every earlier element's write, and changes nothing else. -/
def Obligations.RqmRescalesMemoryInElementOrderOrFails : Prop :=
  encodedBy 0xFFFFFFFC 0x03000000 (fun x => .rqm (x.getLsbD 1) (accw x)) ∧
  (∀ (g : Regs) (i : Nat), rqmSrcAddr g i = (g.rqSrc.toNat + i * g.rqSstr.toNat) % 2 ^ 32 ∧
    rqmDstAddr g i = (g.rqDst.toNat + i * g.rqDstr.toNat) % 2 ^ 32) ∧
  ∀ (perch : Bool) (a : AccWidth) (s : State),
    (outFmtOf s.regs.qfmt = none → exec (.rqm perch a) s = .next (failed s (-3))) ∧
    ∀ fmt, outFmtOf s.regs.qfmt = some fmt →
      (¬rqmPointers s.regs → exec (.rqm perch a) s = .next (failed s (-1))) ∧
      (rqmPointers s.regs → ¬rqmAligned a fmt s.regs → exec (.rqm perch a) s = .next (failed s (-2))) ∧
      (rqmPointers s.regs → rqmAligned a fmt s.regs → ¬(rqmChannels perch s ∧ rqmMults perch s) →
        exec (.rqm perch a) s = .next (failed s (-3))) ∧
      (rqmPointers s.regs → rqmAligned a fmt s.regs → rqmChannels perch s → rqmMults perch s →
        ¬rqmShifts perch s → exec (.rqm perch a) s = .next (failed s (-4))) ∧
      (rqmPointers s.regs → rqmAligned a fmt s.regs → rqmChannels perch s → rqmMults perch s →
        rqmShifts perch s → ¬zeroPoint fmt s → exec (.rqm perch a) s = .next (failed s (-5))) ∧
      (rqmReady perch a fmt s → rqmOrdinary a fmt s →
        ∃ M : Nat → Memory, M 0 = s.mem ∧
          (∀ i, i < s.regs.rqCnt.toNat →
            M (i + 1) =
              memWrite (M i) (rqmDstAddr s.regs i) (outBytes fmt) (elementOutput perch a fmt s (M i) i)) ∧
          exec (.rqm perch a) s = .next { completed s with mem := M s.regs.rqCnt.toNat })

/-- R128, R120: when no output overlaps an accumulator or another output, each output holds the rescaled accumulator that memory held at the command. -/
def Obligations.RqmStoresEveryRescaledAccumulator : Prop :=
  ∀ (perch : Bool) (a : AccWidth) (fmt : OutFmt) (s : State), Memory.wf s.mem = true →
    rqmReady perch a fmt s → rqmOrdinary a fmt s →
    (∀ i j, i < s.regs.rqCnt.toNat → j < s.regs.rqCnt.toNat →
      apart (rqmDstAddr s.regs i) (outBytes fmt) (rqmSrcAddr s.regs j) (accBytes a)) →
    (∀ i j, i < s.regs.rqCnt.toNat → j < s.regs.rqCnt.toNat → i ≠ j →
      rqmDstAddr s.regs i ≠ rqmDstAddr s.regs j) →
    ∃ t, exec (.rqm perch a) s = .next t ∧ t.errcode = 0 ∧ t.err = false ∧
      ∀ i, i < s.regs.rqCnt.toNat →
        (memRead t.mem (rqmDstAddr s.regs i) (outBytes fmt) : Int) =
          elementOutput perch a fmt s s.mem i % 2 ^ (8 * outBytes fmt)

/-- R128, R37: whatever RQM does, it changes only memory, ERRCODE and STATUS.ERR, and of memory only the bytes of its outputs. -/
def Obligations.RqmChangesOnlyItsOutputBytes : Prop :=
  ∀ (perch : Bool) (a : AccWidth) (s t : State), exec (.rqm perch a) s = .next t →
    t = { s with mem := t.mem, errcode := t.errcode, err := t.err } ∧
    (outFmtOf s.regs.qfmt = none → t.mem = s.mem) ∧
    ∀ fmt, outFmtOf s.regs.qfmt = some fmt →
      ∀ b : Nat, (∀ i, i < s.regs.rqCnt.toNat → apart b 1 (rqmDstAddr s.regs i) (outBytes fmt)) →
        memRead1 t.mem b = memRead1 s.mem b

/-- R81: in-place narrowing leaves the upper bytes of every accumulator word, and fills the low ones with the output. -/
def Obligations.RqmInPlaceNarrowingKeepsUpperBytes : Prop :=
  ∀ (perch : Bool) (fmt : OutFmt) (s : State), Memory.wf s.mem = true →
    rqmReady perch .acc32 fmt s → rqmOrdinary .acc32 fmt s →
    s.regs.rqDst = s.regs.rqSrc → s.regs.rqDstr = s.regs.rqSstr →
    (∀ i j, i < s.regs.rqCnt.toNat → j < s.regs.rqCnt.toNat → i ≠ j →
      rqmSrcAddr s.regs i ≠ rqmSrcAddr s.regs j) →
    ∃ t, exec (.rqm perch .acc32) s = .next t ∧ t.errcode = 0 ∧
      ∀ i, i < s.regs.rqCnt.toNat →
        (memRead t.mem (rqmSrcAddr s.regs i) (outBytes fmt) : Int) =
          elementOutput perch .acc32 fmt s s.mem i % 2 ^ (8 * outBytes fmt) ∧
        ∀ k, outBytes fmt ≤ k → k < 4 →
          memRead1 t.mem (rqmSrcAddr s.regs i + k) = memRead1 s.mem (rqmSrcAddr s.regs i + k)

/-- R79, R76, R80(1) (U6, U7): an RQM stops at its first access, element by element and each element's read before its write, that does not fall on ordinary memory, and has no next state. An access meets its bytes from the lowest on. What is not ordinary memory, and that the first such access names the reason, is the model's reading (logs 10, 11, 21). -/
def Obligations.RqmStopsAtAnAccessOutsideOrdinaryMemory : Prop :=
  (∀ (c : Params) (addr n : Nat) (st : Stop), busStop c addr n = some st ↔
    ∃ k, k < n ∧ busStop1 c ((addr + k) % 2 ^ 32) = some st ∧
      ∀ j, j < k → busStop1 c ((addr + j) % 2 ^ 32) = none) ∧
  ∀ (perch : Bool) (a : AccWidth) (fmt : OutFmt) (s : State) (i : Nat) (st : Stop),
    rqmReady perch a fmt s → i < s.regs.rqCnt.toNat →
    (∀ k, k < i →
      busStop s.cfg (rqmSrcAddr s.regs k) (accBytes a) = none ∧
      busStop s.cfg (rqmDstAddr s.regs k) (outBytes fmt) = none) →
    (busStop s.cfg (rqmSrcAddr s.regs i) (accBytes a) = some st → stopsWith (.rqm perch a) s st) ∧
    (busStop s.cfg (rqmSrcAddr s.regs i) (accBytes a) = none →
      busStop s.cfg (rqmDstAddr s.regs i) (outBytes fmt) = some st → stopsWith (.rqm perch a) s st)

/-! ### The window -/

/-- R161: `cell(l, p)` is the source element where `l` and `p` are real, else padding, which reads no memory. -/
def Obligations.WindowCellIsSourceElementOrPadding : Prop :=
  ∀ (c : Params) (m : Memory) (w : Window) (l p : Int),
    (winReal w l p = true ↔
      0 ≤ l ∧ l < (if w.orient = .rows then (w.h : Int) else w.w) ∧
      0 ≤ p - w.padp ∧ p - w.padp < (if w.orient = .rows then (w.w : Int) else w.h)) ∧
    (winAddr w l p : Int) =
      ((w.src.toNat : Int) +
        (if w.orient = .rows then l * w.py.toNat + (p - w.padp) * w.px.toNat
         else (p - w.padp) * w.py.toNat + l * w.px.toNat)) % 2 ^ 32 ∧
    (winReal w l p = true → busStop c (winAddr w l p) (elemBytes w.elem) = none →
      loadCell c m w l p = .ok (BitVec.ofNat 16 (memRead m (winAddr w l p) (elemBytes w.elem)))) ∧
    (winReal w l p = false →
      loadCell c m w l p = .ok (BitVec.ofInt 16 (w.padv % 2 ^ (8 * elemBytes w.elem))))

/-- R160: WINIT latches the configuration registers and opens an empty window, or fails at its first bad check and leaves an open window as it is. What the ring holds then is unspecified (log 5). -/
def Obligations.WinitOpensTheWindowOrFails : Prop :=
  encodedBy 0xFFFFFFFF 0x10000000 (fun _ => .winit) ∧
  ∀ s : State,
    let g := s.regs
    let e := elemOf g.wFmt
    let aligned := g.wSrc.toNat % elemBytes e = 0 ∧ g.wPitchY.toNat % elemBytes e = 0 ∧ g.wPitchX.toNat % elemBytes e = 0
    let dims := 1 ≤ g.wSrcH.toInt ∧ g.wSrcH.toInt ≤ 65535 ∧ 1 ≤ g.wSrcW.toInt ∧ g.wSrcW.toInt ≤ 65535 ∧
      0 ≤ g.wPadL.toInt ∧ g.wPadL.toInt ≤ 65535 ∧ 0 ≤ g.wPadP.toInt ∧ g.wPadP.toInt ≤ 65535
    let padOk := elemLo e ≤ g.wPadv.toInt ∧ g.wPadv.toInt ≤ elemHi e
    let sizeOk := 1 ≤ g.wCap.toInt ∧ 1 ≤ g.wLen.toInt ∧ g.wCap.toInt ≤ 4096 ∧ g.wLen.toInt ≤ 4096 ∧
      g.wCap.toInt * g.wLen.toInt * elemBytes e ≤ s.cfg.wbufBytes.toNat
    (g.wSrc = 0 → exec .winit s = .next (failed s (-1))) ∧
    (g.wSrc ≠ 0 → ¬aligned → exec .winit s = .next (failed s (-2))) ∧
    (g.wSrc ≠ 0 → aligned → ¬dims → exec .winit s = .next (failed s (-3))) ∧
    (g.wSrc ≠ 0 → aligned → dims → ¬padOk → exec .winit s = .next (failed s (-5))) ∧
    (g.wSrc ≠ 0 → aligned → dims → padOk → ¬sizeOk → exec .winit s = .next (failed s (-7))) ∧
    (g.wSrc ≠ 0 → aligned → dims → padOk → sizeOk →
      ∃ t, exec .winit s = .next t ∧
        t = { completed s with win := t.win, ring := t.ring, ringGen := t.ringGen } ∧
        t.win.isOpen = true ∧ t.win.src = g.wSrc ∧ t.win.py = g.wPitchY ∧ t.win.px = g.wPitchX ∧
        (t.win.h : Int) = g.wSrcH.toInt ∧ (t.win.w : Int) = g.wSrcW.toInt ∧ (t.win.padl : Int) = g.wPadL.toInt ∧
        (t.win.padp : Int) = g.wPadP.toInt ∧ (t.win.len : Int) = g.wLen.toInt ∧ (t.win.cap : Int) = g.wCap.toInt ∧
        t.win.padv = g.wPadv.toInt ∧ (t.win.orient = .columns ↔ g.wFmt.getLsbD 0 = true) ∧ t.win.elem = e ∧
        t.win.head = 0 ∧ t.win.valid = 0 ∧ t.win.top = -g.wPadL.toInt)

/-- R162, R163, R164: WADV loads the next lines and evicts the oldest, leaving the resident lines where they are, or fails at its first bad check and changes nothing. `e` is the number of lines evicted. -/
def Obligations.WadvLoadsNextLinesAndEvictsOldest : Prop :=
  encodedBy 0xFFFF0000 0x11000000 (fun x => .wadv (x.extractLsb' 0 16).toNat) ∧
  ∀ (n : Nat) (s : State),
    let w := s.win
    let e := w.valid + n - w.cap
    (w.isOpen = false → exec (.wadv n) s = .next (failed s (-9))) ∧
    (w.isOpen = true → w.cap < n ∨ 2 ^ 31 - 1 < w.top + w.valid + n →
      exec (.wadv n) s = .next (failed s (-3))) ∧
    (w.isOpen = true → n ≤ w.cap → w.top + w.valid + n ≤ 2 ^ 31 - 1 → w.head < w.cap → w.valid ≤ w.cap →
      (∀ j p : Nat, j < n → p < w.len → winReal w (w.top + w.valid + j) p = true →
        busStop s.cfg (winAddr w (w.top + w.valid + j) p) (elemBytes w.elem) = none) →
      ∃ t, exec (.wadv n) s = .next t ∧
        t = { completed s with
              ring := t.ring
              win := { w with valid := w.valid + n - e, head := (w.head + e) % w.cap, top := w.top + e } } ∧
        ∀ r p : Nat, r < w.valid + n - e → p < w.len →
          (w.valid ≤ r + e →
            loadCell s.cfg s.mem w (w.top + e + r) p = .ok (ringCell t ((w.head + e + r) % w.cap) p)) ∧
          (r + e < w.valid →
            ringCell t ((w.head + e + r) % w.cap) p = ringCell s ((w.head + e + r) % w.cap) p))

/-- R165: WRD returns the element of a resident line, sign- or zero-extended, and changes nothing else, or fails. -/
def Obligations.WrdReadsAResidentElementOrFails : Prop :=
  encodedBy 0xFF000000 0x12000000 (fun x => .wrd (x.extractLsb' 12 12).toNat (x.extractLsb' 0 12).toNat) ∧
  ∀ (row col : Nat) (s : State),
    (s.win.isOpen = false → exec (.wrd row col) s = .next (failed s (-9))) ∧
    (s.win.isOpen = true → s.win.valid ≤ row ∨ s.win.len ≤ col → exec (.wrd row col) s = .next (failed s (-3))) ∧
    (s.win.isOpen = true → row < s.win.valid → col < s.win.len →
      ∃ lo hi, exec (.wrd row col) s = .next { completed s with resultLo := lo, resultHi := hi } ∧
        (hi ++ lo).toInt = elemExt s.win.elem (ringCell s ((s.win.head + row) % s.win.cap) col))

/-- R166: while the open window holds its lines, WRD shows the padded input. -/
def Obligations.OpenWindowShowsThePaddedInput : Prop :=
  ∀ (row col : Nat) (s : State), s.win.isOpen = true → OpenBounds s.cfg s.win → WindowHolds s →
    row < s.win.valid → col < s.win.len →
    ∃ t, exec (.wrd row col) s = .next t ∧ t.errcode = 0 ∧
      (t.resultHi ++ t.resultLo).toInt = paddedInput s (s.win.top + row) col

/-- R47, R85, R166: every step that leaves memory as it is leaves an open window holding its lines. -/
def Obligations.StepKeepsTheWindowHoldingItsLines : Prop :=
  ∀ s t : State, Inv s → (s.win.isOpen = true → WindowHolds s) → step s = .next t → t.mem = s.mem →
    t.win.isOpen = true → WindowHolds t

/-- R167: WCLOSE closes the window, after which W_STATE to W_TOP read 0 and WADV and WRD fail with ERR_STATE. -/
def Obligations.WcloseDiscardsTheWindow : Prop :=
  encodedBy 0xFFFFFFFF 0x13000000 (fun _ => .wclose) ∧
  ∀ s : State,
    ∃ t, exec .wclose s = .next t ∧
      t = { completed s with win := { s.win with isOpen := false, head := 0, valid := 0, top := 0 } } ∧
      readReg .wState t = 0 ∧ readReg .wHead t = 0 ∧ readReg .wCur t = 0 ∧ readReg .wValid t = 0 ∧
      readReg .wTop t = 0 ∧
      ∀ n row col : Nat, exec (.wadv n) t = .next (failed t (-9)) ∧ exec (.wrd row col) t = .next (failed t (-9))

/-- R170: SIZEQ's checks in their order and its two results. `outn` is the number of output lines: the floor of `(P - reach) / S`, plus 1. -/
def Obligations.SizeqComputesTheRingCapacityOrFails : Prop :=
  encodedBy 0xFFFFFFFF 0x14000000 (fun _ => .sizeq) ∧
  ∀ (s : State) (outn : Int),
    let K := s.regs.szK.toInt
    let S := s.regs.szS.toInt
    let D := s.regs.szD.toInt
    let T := s.regs.szT.toInt
    let P := s.regs.szPadded.toInt
    let len := s.regs.wLen.toInt
    let eb : Int := elemBytes (elemOf s.regs.wFmt)
    let reach := (K - 1) * D + 1
    let cap := (min T outn - 1) * S + reach
    let fits := 1 ≤ len ∧ len ≤ 4096 ∧ cap ≤ 4096 ∧ cap * len * eb ≤ s.cfg.wbufBytes.toNat
    (K < 1 ∨ D < 1 ∨ T < 1 ∨ P < 1 → exec .sizeq s = .next (failed s (-3))) ∧
    (1 ≤ K → 1 ≤ D → 1 ≤ T → 1 ≤ P →
      (S < 1 ∨ K < S → exec .sizeq s = .next (failed s (-6))) ∧
      (1 ≤ S → S ≤ K → (outn - 1) * S ≤ P - reach → P - reach < outn * S →
        (outn ≤ 0 ∨ ¬fits → exec .sizeq s = .next (failed s (-7))) ∧
        (1 ≤ outn → fits →
          exec .sizeq s = .next { completed s with
            resultLo := BitVec.ofInt 32 (cap * len * eb)
            resultHi := BitVec.ofInt 32 cap })))

/-- R170, R253 step 5: a window with the capacity SIZEQ returned, for the same W_LEN and W_FMT, never fails with ERR_SIZE, and an advance by one tile's worth of lines, `te·S` with `te = min(T, outn)`, is at least one line and never exceeds the capacity. `outn` is the number of output lines, as in `SizeqComputesTheRingCapacityOrFails`. -/
def Obligations.SizeqCapacityIsAcceptedByWinit : Prop :=
  ∀ s t : State, exec .sizeq s = .next t → t.err = false →
    (∀ v, exec .winit { t with regs := { t.regs with wCap := t.resultHi } } = .next v →
      v.errcode ≠ BitVec.ofInt 32 (-7)) ∧
    1 ≤ t.resultHi.toInt ∧ s.regs.szS.toInt ≤ t.resultHi.toInt ∧
    (t.resultLo.toNat : Int) = t.resultHi.toInt * s.regs.wLen.toInt * elemBytes (elemOf s.regs.wFmt) ∧
    ∀ outn : Int,
      let S := s.regs.szS.toInt
      let reach := (s.regs.szK.toInt - 1) * s.regs.szD.toInt + 1
      let te := min s.regs.szT.toInt outn
      (outn - 1) * S ≤ s.regs.szPadded.toInt - reach → s.regs.szPadded.toInt - reach < outn * S →
      1 ≤ te * S ∧ te * S ≤ t.resultHi.toInt

/-! ### NOP, and rules of the whole machine -/

/-- R205: NOP clears ERRCODE and STATUS.ERR, and changes nothing else. -/
def Obligations.NopClearsTheStatus : Prop :=
  encodedBy 0xFFFFFFFF 0x00000000 (fun _ => .nop) ∧
  ∀ s : State, exec .nop s = .next { s with errcode := 0, err := false }

/-- R221: a failing command records its code and changes nothing else. -/
def Obligations.FailingCommandChangesOnlyTheStatus : Prop :=
  ∀ (i : Instr) (s t : State), exec i s = .next t → t.err = true →
    t = { s with errcode := t.errcode, err := true }

/-- R220: which status codes each command can leave. -/
def Obligations.CommandsLeaveOnlyTheirStatusCodes : Prop :=
  ∀ (i : Instr) (s t : State), exec i s = .next t →
    (t.errcode = 0 ∧ t.err = false) ∨ (t.err = true ∧ ∃ c ∈ mayRaise i, t.errcode = BitVec.ofInt 32 c)

/-- R37, R40, R29: no command writes a read-write register, the per-channel table or a build parameter. -/
def Obligations.CommandsLeaveRegistersAndTableAlone : Prop :=
  ∀ (i : Instr) (s t : State), exec i s = .next t →
    t.regs = s.regs ∧ t.pcMult = s.pcMult ∧ t.pcShift = s.pcShift ∧ t.pcGen = s.pcGen ∧ t.cfg = s.cfg ∧
    t.busy = s.busy ∧ t.pending = s.pending ∧ t.rdata = s.rdata

/-- R28: only RQ, RQPC, WRD and SIZEQ write RESULT, and only when they complete successfully. -/
def Obligations.OnlyScalarCommandsWriteResult : Prop :=
  ∀ (i : Instr) (s t : State), exec i s = .next t →
    t.resultLo ≠ s.resultLo ∨ t.resultHi ≠ s.resultHi →
    t.err = false ∧ ((∃ a, i = .rq a) ∨ (∃ ch a, i = .rqpc ch a) ∨ (∃ r k, i = .wrd r k) ∨ i = .sizeq)

/-- R70, R169: no command but RQM writes system memory. -/
def Obligations.OnlyRqmWritesSystemMemory : Prop :=
  ∀ (i : Instr) (s t : State), exec i s = .next t → (∀ p a, i ≠ .rqm p a) → t.mem = s.mem

/-- R45, R46: only WINIT, WADV and WCLOSE change the window, and only WINIT and WADV the ring: the slots loaded, what `ringCell` reads of every cell, and the generation its free values depend on (log 5), which only WINIT changes. -/
def Obligations.OnlyWindowCommandsChangeTheWindow : Prop :=
  ∀ (i : Instr) (s t : State), exec i s = .next t →
    (t.win ≠ s.win → i = .winit ∨ i = .wclose ∨ ∃ n, i = .wadv n) ∧
    (t.ring ≠ s.ring → i = .winit ∨ ∃ n, i = .wadv n) ∧
    (t.ringGen ≠ s.ringGen → i = .winit) ∧
    (∀ slot p, ringCell t slot p ≠ ringCell s slot p → i = .winit ∨ ∃ n, i = .wadv n)

/-- R203, R79: a command is stopped only by an access of RQM or WADV that does not fall on ordinary memory, and says which byte. That a read of an unwritten `pc_tab` entry, R203's second way not to be total, stops no command is U3's `any value` (log 4), and the reasons are the model's (logs 10, 11). -/
def Obligations.OnlyMemoryAccessesStopACommand : Prop :=
  ∀ (i : Instr) (s : State),
    (∀ r, exec i s = .fault r →
      ((∃ p a, i = .rqm p a) ∨ ∃ n, i = .wadv n) ∧ ∃ b, r = .busError b ∧ busStop1 s.cfg b = some (.fault r)) ∧
    (∀ r, exec i s = .refused r →
      ((∃ p a, i = .rqm p a) ∨ ∃ n, i = .wadv n) ∧
        ∃ b, r = .notOrdinaryMemory b ∧ busStop1 s.cfg b = some (.refused r))

/-- R8, R9, R20, R22 to R24, R49: no step changes a build parameter. That they and the platform's regions stand in `cfg` is the model's choice (log 1). -/
def Obligations.BuildParametersNeverChange : Prop := ∀ s t : State, step s = .next t → t.cfg = s.cfg

/-- The invariant holds after reset. The values the spec leaves open there are the model's (logs 1, 6, 7). -/
def Obligations.InvariantHoldsAtReset : Prop := Inv State.reset

/-- R25, R47, R202, R220: every step keeps the invariant. The canonical form of memory in it is the model's own (log 7). -/
def Obligations.StepKeepsTheInvariant : Prop := ∀ s t : State, Inv s → step s = .next t → Inv t

/-! ### Accesses off ordinary memory, and other agents' writes -/

/-- R79, R76, R80(1) (U6, U7): a WADV whose checks pass stops at its first access, line by line and in increasing position, that does not fall on ordinary memory, and has no next state. Padding makes no access. The reasons are the model's reading (logs 10, 11, 21). -/
def Obligations.WadvStopsAtAnAccessOutsideOrdinaryMemory : Prop :=
  ∀ (n : Nat) (s : State) (j p : Nat) (st : Stop),
    s.win.isOpen = true → n ≤ s.win.cap → s.win.top + s.win.valid + n ≤ 2 ^ 31 - 1 →
    j < n → p < s.win.len →
    (∀ k q, k < j → q < s.win.len → wadvStop s k q = none) → (∀ q, q < p → wadvStop s j q = none) →
    wadvStop s j p = some st → stopsWith (.wadv n) s st

/-- R80, R76: another agent's write of one byte of ordinary memory sets that byte, leaves every other byte and everything else as it is, and keeps memory's canonical form. Where no ordinary memory stands it is refused. That such writes are one byte each is the model's choice (log 12), and so is the refusal (log 10). -/
def Obligations.MemoryWriteEventSetsOneByte : Prop :=
  ∀ (s : State) (addr : Word) (b : Byte) (rest : List HostOp),
    (busStop1 s.cfg addr.toNat = none →
      ∃ m, step (about s (.memWrite addr b) rest) = .next { s with busy := false, pending := rest, mem := m } ∧
        (∀ a : Nat, a ≠ addr.toNat → memRead1 m a = memRead1 s.mem a) ∧
        (Memory.wf s.mem = true → memRead1 m addr.toNat = b ∧ Memory.wf m = true)) ∧
    (busStop1 s.cfg addr.toNat ≠ none →
      step (about s (.memWrite addr b) rest) = .refused (.notOrdinaryMemory addr.toNat))
end

