-- ==== Sys2Proof/Laws/Bus.lean ====
section
/-! SUPPORT. The master port: what a completed and what a stopped access say. -/

namespace Sys2Proof.Machine

open Sys2Proof

theorem busRead_ok {p : Params} {m : Memory} {addr n : Nat} (h : busStop p addr n = none) :
    busRead p m addr n = .ok (memRead m addr n) := by rw [busRead, h]

theorem busWrite_ok {p : Params} {m : Memory} {addr n : Nat} {v : Int} (h : busStop p addr n = none) :
    busWrite p m addr n v = .ok (memWrite m addr n v) := by rw [busWrite, h]

/-- A completed read was of ordinary memory, and returns the word there. -/
theorem busRead_eq_ok {p : Params} {m : Memory} {addr n v : Nat} (h : busRead p m addr n = .ok v) :
    busStop p addr n = none ∧ v = memRead m addr n := by
  unfold busRead at h
  split at h
  · cases h
  · cases h; exact ⟨‹_›, rfl⟩

/-- A completed write was to ordinary memory, and stored the word there. -/
theorem busWrite_eq_ok {p : Params} {m t : Memory} {addr n : Nat} {v : Int} (h : busWrite p m addr n v = .ok t) :
    busStop p addr n = none ∧ t = memWrite m addr n v := by
  unfold busWrite at h
  split at h
  · cases h
  · cases h; exact ⟨‹_›, rfl⟩

theorem busRead_eq_error {p : Params} {m : Memory} {addr n : Nat} {st : Stop} (h : busRead p m addr n = .error st) :
    busStop p addr n = some st := by
  unfold busRead at h
  split at h
  · cases h; assumption
  · cases h

theorem busWrite_eq_error {p : Params} {m : Memory} {addr n : Nat} {v : Int} {st : Stop}
    (h : busWrite p m addr n v = .error st) : busStop p addr n = some st := by
  unfold busWrite at h
  split at h
  · cases h; assumption
  · cases h

theorem regionStop_eq_some {a : Nat} {rs : List Region} {st : Stop} (h : regionStop a rs = some st) :
    st = .refused (.notOrdinaryMemory a) ∨ st = .fault (.busError a) := by
  induction rs with
  | nil => cases h
  | cons r rs ih =>
    unfold regionStop at h
    split at h
    · split at h
      · cases h; exact .inl rfl
      · cases h; exact .inr rfl
    · exact ih h

/-- The two ways a byte stops an access, and that the reason names the byte. -/
theorem busStop1_eq_some {p : Params} {a : Nat} {st : Stop} (h : busStop1 p a = some st) :
    st = .refused (.notOrdinaryMemory a) ∨ st = .fault (.busError a) := by
  unfold busStop1 at h
  split at h
  · cases h; exact .inl rfl
  · exact regionStop_eq_some h

/-- A stopped access was stopped by one of its bytes. -/
theorem busStop_eq_some {p : Params} {addr n : Nat} {st : Stop} (h : busStop p addr n = some st) :
    ∃ b, busStop1 p b = some st := by
  induction n generalizing addr with
  | zero => cases h
  | succ n ih =>
    unfold busStop at h
    split at h
    · rename_i st' h1
      cases h; exact ⟨_, h1⟩
    · exact ih h

end Sys2Proof.Machine
end

