-- ==== Sys2Proof/Laws/State.lean ====
section
/-! SUPPORT. One lemma per field and shared update of State, so that no proof unfolds a record update. -/

namespace Sys2Proof.Machine

open Sys2Proof

/-! ### `State.succeed` -/

@[simp] theorem succeed_cfg (s : State) : s.succeed.cfg = s.cfg := rfl
@[simp] theorem succeed_regs (s : State) : s.succeed.regs = s.regs := rfl
@[simp] theorem succeed_busy (s : State) : s.succeed.busy = s.busy := rfl
@[simp] theorem succeed_err (s : State) : s.succeed.err = false := rfl
@[simp] theorem succeed_errcode (s : State) : s.succeed.errcode = 0 := rfl
@[simp] theorem succeed_resultLo (s : State) : s.succeed.resultLo = s.resultLo := rfl
@[simp] theorem succeed_resultHi (s : State) : s.succeed.resultHi = s.resultHi := rfl
@[simp] theorem succeed_pcMult (s : State) : s.succeed.pcMult = s.pcMult := rfl
@[simp] theorem succeed_pcShift (s : State) : s.succeed.pcShift = s.pcShift := rfl
@[simp] theorem succeed_win (s : State) : s.succeed.win = s.win := rfl
@[simp] theorem succeed_ring (s : State) : s.succeed.ring = s.ring := rfl
@[simp] theorem succeed_mem (s : State) : s.succeed.mem = s.mem := rfl
@[simp] theorem succeed_pcGen (s : State) : s.succeed.pcGen = s.pcGen := rfl
@[simp] theorem succeed_ringGen (s : State) : s.succeed.ringGen = s.ringGen := rfl
@[simp] theorem succeed_pending (s : State) : s.succeed.pending = s.pending := rfl
@[simp] theorem succeed_rdata (s : State) : s.succeed.rdata = s.rdata := rfl

/-! ### `State.fail` -/

@[simp] theorem fail_cfg (s : State) (c : ErrCode) : (s.fail c).cfg = s.cfg := rfl
@[simp] theorem fail_regs (s : State) (c : ErrCode) : (s.fail c).regs = s.regs := rfl
@[simp] theorem fail_busy (s : State) (c : ErrCode) : (s.fail c).busy = s.busy := rfl
@[simp] theorem fail_err (s : State) (c : ErrCode) : (s.fail c).err = true := rfl
@[simp] theorem fail_errcode (s : State) (c : ErrCode) : (s.fail c).errcode = errWord c := rfl
@[simp] theorem fail_resultLo (s : State) (c : ErrCode) : (s.fail c).resultLo = s.resultLo := rfl
@[simp] theorem fail_resultHi (s : State) (c : ErrCode) : (s.fail c).resultHi = s.resultHi := rfl
@[simp] theorem fail_pcMult (s : State) (c : ErrCode) : (s.fail c).pcMult = s.pcMult := rfl
@[simp] theorem fail_pcShift (s : State) (c : ErrCode) : (s.fail c).pcShift = s.pcShift := rfl
@[simp] theorem fail_win (s : State) (c : ErrCode) : (s.fail c).win = s.win := rfl
@[simp] theorem fail_ring (s : State) (c : ErrCode) : (s.fail c).ring = s.ring := rfl
@[simp] theorem fail_mem (s : State) (c : ErrCode) : (s.fail c).mem = s.mem := rfl
@[simp] theorem fail_pcGen (s : State) (c : ErrCode) : (s.fail c).pcGen = s.pcGen := rfl
@[simp] theorem fail_ringGen (s : State) (c : ErrCode) : (s.fail c).ringGen = s.ringGen := rfl
@[simp] theorem fail_pending (s : State) (c : ErrCode) : (s.fail c).pending = s.pending := rfl
@[simp] theorem fail_rdata (s : State) (c : ErrCode) : (s.fail c).rdata = s.rdata := rfl

/-! ### `State.setResult` -/

@[simp] theorem setResult_cfg (s : State) (v : Int) : (s.setResult v).cfg = s.cfg := rfl
@[simp] theorem setResult_regs (s : State) (v : Int) : (s.setResult v).regs = s.regs := rfl
@[simp] theorem setResult_busy (s : State) (v : Int) : (s.setResult v).busy = s.busy := rfl
@[simp] theorem setResult_err (s : State) (v : Int) : (s.setResult v).err = s.err := rfl
@[simp] theorem setResult_errcode (s : State) (v : Int) : (s.setResult v).errcode = s.errcode := rfl
@[simp] theorem setResult_resultLo (s : State) (v : Int) : (s.setResult v).resultLo = (BitVec.ofInt 64 v).extractLsb' 0 32 := rfl
@[simp] theorem setResult_resultHi (s : State) (v : Int) : (s.setResult v).resultHi = (BitVec.ofInt 64 v).extractLsb' 32 32 := rfl
@[simp] theorem setResult_pcMult (s : State) (v : Int) : (s.setResult v).pcMult = s.pcMult := rfl
@[simp] theorem setResult_pcShift (s : State) (v : Int) : (s.setResult v).pcShift = s.pcShift := rfl
@[simp] theorem setResult_win (s : State) (v : Int) : (s.setResult v).win = s.win := rfl
@[simp] theorem setResult_ring (s : State) (v : Int) : (s.setResult v).ring = s.ring := rfl
@[simp] theorem setResult_mem (s : State) (v : Int) : (s.setResult v).mem = s.mem := rfl
@[simp] theorem setResult_pcGen (s : State) (v : Int) : (s.setResult v).pcGen = s.pcGen := rfl
@[simp] theorem setResult_ringGen (s : State) (v : Int) : (s.setResult v).ringGen = s.ringGen := rfl
@[simp] theorem setResult_pending (s : State) (v : Int) : (s.setResult v).pending = s.pending := rfl
@[simp] theorem setResult_rdata (s : State) (v : Int) : (s.setResult v).rdata = s.rdata := rfl

/-! ### The window's cursor -/

/-- What loading a line changes in `w`: only `valid`, or `head` and `top` (R163, R164). -/
theorem winAdvanced_eq (w : Window) :
    winAdvanced w = { w with valid := (winAdvanced w).valid, head := (winAdvanced w).head, top := (winAdvanced w).top } := by
  unfold winAdvanced; split <;> rfl

@[simp] theorem winAdvanced_isOpen (w : Window) : (winAdvanced w).isOpen = w.isOpen := by rw [winAdvanced_eq]
@[simp] theorem winAdvanced_src (w : Window) : (winAdvanced w).src = w.src := by rw [winAdvanced_eq]
@[simp] theorem winAdvanced_py (w : Window) : (winAdvanced w).py = w.py := by rw [winAdvanced_eq]
@[simp] theorem winAdvanced_px (w : Window) : (winAdvanced w).px = w.px := by rw [winAdvanced_eq]
@[simp] theorem winAdvanced_h (w : Window) : (winAdvanced w).h = w.h := by rw [winAdvanced_eq]
@[simp] theorem winAdvanced_w (w : Window) : (winAdvanced w).w = w.w := by rw [winAdvanced_eq]
@[simp] theorem winAdvanced_padl (w : Window) : (winAdvanced w).padl = w.padl := by rw [winAdvanced_eq]
@[simp] theorem winAdvanced_padp (w : Window) : (winAdvanced w).padp = w.padp := by rw [winAdvanced_eq]
@[simp] theorem winAdvanced_len (w : Window) : (winAdvanced w).len = w.len := by rw [winAdvanced_eq]
@[simp] theorem winAdvanced_cap (w : Window) : (winAdvanced w).cap = w.cap := by rw [winAdvanced_eq]
@[simp] theorem winAdvanced_padv (w : Window) : (winAdvanced w).padv = w.padv := by rw [winAdvanced_eq]
@[simp] theorem winAdvanced_orient (w : Window) : (winAdvanced w).orient = w.orient := by rw [winAdvanced_eq]
@[simp] theorem winAdvanced_elem (w : Window) : (winAdvanced w).elem = w.elem := by rw [winAdvanced_eq]

end Sys2Proof.Machine
end

