-- ==== Sys2Proof/Laws/Commands.lean ====
section
/-! SUPPORT. One inversion lemma per meaning: if it answers next t, then t is one of these. Later proofs cite these and do not unfold the meanings. -/

namespace Sys2Proof.Machine

open Sys2Proof

/-- A scalar rescale fails, or writes RESULT and completes. -/
theorem scalarRescale_cases (m sh : Word) (a : AccWidth) (s : State) :
    (∃ e, checkQ (s32 m) (s32 sh) (s32 s.regs.qzp) s.regs.qfmt = .error e ∧ scalarRescale m sh a s = s.fail e) ∨
    ∃ fmt, checkQ (s32 m) (s32 sh) (s32 s.regs.qzp) s.regs.qfmt = .ok fmt ∧
      scalarRescale m sh a s =
        (s.setResult (rescale s.cfg (accOperand a s.regs) (s32 m) (s32 sh) (s32 s.regs.qzp) fmt)).succeed := by
  unfold scalarRescale
  split
  · exact .inl ⟨_, ‹_›, rfl⟩
  · exact .inr ⟨_, ‹_›, rfl⟩

/-- The codes of CheckQ (R124). -/
theorem checkQ_error {m s z : Int} {f : BitVec 3} {e : ErrCode} (h : checkQ m s z f = .error e) :
    e = .param ∨ e = .shift ∨ e = .zp := by
  unfold checkQ at h
  split at h
  · cases h; simp
  · repeat' split at h
    all_goals cases h
    all_goals simp

/-- RQM fails at a check, or completes with the memory its elements leave. -/
theorem execRqm_next {perch : Bool} {a : AccWidth} {s t : State} (h : execRqm perch a s = .next t) :
    (∃ e, rqmCheck perch a s = .error e ∧ t = s.fail e) ∨
    ∃ fmt m, rqmCheck perch a s = .ok fmt ∧ rqmElements perch a fmt s (u32 s.regs.rqCnt) = .ok m ∧
      t = State.succeed { s with mem := m } := by
  unfold execRqm at h
  split at h
  · cases h; exact .inl ⟨_, ‹_›, rfl⟩
  · split at h
    · rename_i st _
      cases st <;> cases h
    · cases h; exact .inr ⟨_, _, ‹_›, ‹_›, rfl⟩

/-- One completed element of RQM: both accesses on ordinary memory, and the output stored (R128). -/
theorem rqmElement_ok {perch : Bool} {a : AccWidth} {fmt : OutFmt} {s : State} {m t : Memory} {i : Nat}
    (h : rqmElement perch a fmt s m i = .ok t) :
    busStop s.cfg (rqmSrcAddr s.regs i) (accBytes a) = none ∧ busStop s.cfg (rqmDstAddr s.regs i) (outBytes fmt) = none ∧
      t = memWrite m (rqmDstAddr s.regs i) (outBytes fmt) (rqmOutput perch a fmt s m i) := by
  unfold rqmElement at h
  split at h
  · cases h
  · obtain ⟨h1, rfl⟩ := busRead_eq_ok ‹_›
    obtain ⟨h2, rfl⟩ := busWrite_eq_ok h
    exact ⟨h1, h2, rfl⟩

/-- An element of RQM on ordinary memory completes. -/
theorem rqmElement_of_ordinary {perch : Bool} {a : AccWidth} {fmt : OutFmt} {s : State} {i : Nat} (m : Memory)
    (h1 : busStop s.cfg (rqmSrcAddr s.regs i) (accBytes a) = none)
    (h2 : busStop s.cfg (rqmDstAddr s.regs i) (outBytes fmt) = none) :
    rqmElement perch a fmt s m i =
      .ok (memWrite m (rqmDstAddr s.regs i) (outBytes fmt) (rqmOutput perch a fmt s m i)) := by
  simp only [rqmElement, busRead_ok h1, busWrite_ok h2, rqmOutput]

/-- The elements of RQM, as long as they complete, are a chain of memories. -/
theorem rqmElements_succ_ok {perch : Bool} {a : AccWidth} {fmt : OutFmt} {s : State} {n : Nat} {t : Memory}
    (h : rqmElements perch a fmt s (n + 1) = .ok t) :
    ∃ m, rqmElements perch a fmt s n = .ok m ∧ rqmElement perch a fmt s m n = .ok t := by
  unfold rqmElements at h
  split at h
  · cases h
  · exact ⟨_, ‹_›, h⟩

/-- WINIT fails at a check, or latches the window and makes the ring unspecified. -/
theorem execWinit_next {s t : State} (h : execWinit s = .next t) :
    (∃ e, winitCheck s.cfg s.regs = some e ∧ t = s.fail e) ∨
    (winitCheck s.cfg s.regs = none ∧
      t = State.succeed { s with win := winitWindow s.regs, ring := [], ringGen := s.ringGen + 1 }) := by
  unfold execWinit at h
  split at h
  · cases h; exact .inl ⟨_, ‹_›, rfl⟩
  · cases h; exact .inr ⟨‹_›, rfl⟩

/-- WADV fails at a check, or completes with the lines loaded. -/
theorem execWadv_next {n : Nat} {s t : State} (h : execWadv n s = .next t) :
    (∃ e, wadvCheck n s.win = some e ∧ t = s.fail e) ∨
    ∃ u, wadvCheck n s.win = none ∧ loadLines n s = .ok u ∧ t = u.succeed := by
  unfold execWadv at h
  split at h
  · cases h; exact .inl ⟨_, ‹_›, rfl⟩
  · split at h
    · rename_i st _
      cases st <;> cases h
    · cases h; exact .inr ⟨_, ‹_›, ‹_›, rfl⟩

/-- A loaded line: its cells, its slot, and the moved cursor. -/
theorem loadNextLine_ok {s t : State} (h : loadNextLine s = .ok t) :
    ∃ cells, loadCells s.cfg s.mem s.win (s.win.top + s.win.valid) s.win.len = .ok cells ∧
      t = { s with ring := tabSet s.ring (winCur s.win) cells, win := winAdvanced s.win } := by
  unfold loadNextLine at h
  split at h
  · cases h
  · cases h; exact ⟨_, ‹_›, rfl⟩

/-- A loaded line holds each of its cells, in order (R162). -/
theorem loadCells_ok {c : Params} {m : Memory} {w : Window} {l : Int} {n : Nat} {cells : List (BitVec 16)}
    (h : loadCells c m w l n = .ok cells) :
    cells.length = n ∧ ∀ p, p < n → ∃ b, cells[p]? = some b ∧ loadCell c m w l p = .ok b := by
  induction n generalizing cells with
  | zero => cases h; exact ⟨rfl, fun p hp => absurd hp (Nat.not_lt_zero p)⟩
  | succ n ih =>
    unfold loadCells at h
    split at h
    · cases h
    · rename_i line' h1
      split at h
      · cases h
      · rename_i b h2
        cases h
        obtain ⟨hl, hc⟩ := ih h1
        refine ⟨by simp [hl], fun p hp => ?_⟩
        rcases Nat.lt_or_ge p n with hp' | hp'
        · obtain ⟨b', hb, hb'⟩ := hc p hp'
          exact ⟨b', by rw [List.getElem?_append_left (by omega), hb], hb'⟩
        · have : p = n := by omega
          subst this
          exact ⟨b, by rw [List.getElem?_append_right (by omega), hl, Nat.sub_self]; rfl, h2⟩

/-- A cell that does not load stops its line, whatever cells were to follow. -/
theorem loadCells_error_of_le {c : Params} {m : Memory} {w : Window} {l : Int} {k n : Nat} {st : Stop}
    (h : loadCells c m w l k = .error st) (hk : k ≤ n) : loadCells c m w l n = .error st := by
  induction hk with
  | refl => exact h
  | step _ ih => rw [loadCells, ih]

/-- A line whose cells all load, loads. -/
theorem loadCells_of_cells {c : Params} {m : Memory} {w : Window} {l : Int} {n : Nat}
    (h : ∀ p : Nat, p < n → ∃ b, loadCell c m w l p = .ok b) : ∃ cells, loadCells c m w l n = .ok cells := by
  induction n with
  | zero => exact ⟨[], rfl⟩
  | succ n ih =>
    obtain ⟨cells, hl⟩ := ih fun p hp => h p (by omega)
    obtain ⟨b, hb⟩ := h n (by omega)
    exact ⟨cells ++ [b], by simp only [loadCells, hl, hb]⟩

/-- A cell on ordinary memory loads. -/
theorem loadCell_of_ordinary {c : Params} {m : Memory} {w : Window} {l p : Int}
    (h : winReal w l p = true → busStop c (winAddr w l p) (elemBytes w.elem) = none) :
    ∃ b, loadCell c m w l p = .ok b := by
  unfold loadCell
  split
  · rw [busRead_ok (h ‹_›)]; exact ⟨_, rfl⟩
  · exact ⟨_, rfl⟩

theorem loadCell_error {c : Params} {m : Memory} {w : Window} {l p : Int} {st : Stop}
    (h : loadCell c m w l p = .error st) : ∃ b, busStop1 c b = some st := by
  unfold loadCell at h
  split at h
  · split at h
    · cases h; exact busStop_eq_some (busRead_eq_error ‹_›)
    · cases h
  · cases h

/-- A real cell off ordinary memory does not load. -/
theorem loadCell_of_stop {c : Params} {m : Memory} {w : Window} {l p : Int} {st : Stop} (hr : winReal w l p = true)
    (h : busStop c (winAddr w l p) (elemBytes w.elem) = some st) : loadCell c m w l p = .error st := by
  simp only [loadCell, hr, if_true, busRead, h]

/-- A cell depends on the window's geometry only, not on its cursor. -/
theorem loadCell_winAdvanced (c : Params) (m : Memory) (w : Window) (l p : Int) :
    loadCell c m (winAdvanced w) l p = loadCell c m w l p := by
  rw [winAdvanced_eq]; rfl

end Sys2Proof.Machine
end

