-- ==== Sys2Proof/Laws/Decode.lean ====
section
/-! SUPPORT. Decoding: what an answer of `decode` says of its word, and that the OP byte alone tells the rows of spec/30_encoding.md R94 apart. -/

namespace Sys2Proof

/-- A matching row fixes the OP byte (R94: the OP byte is in every mask). -/
theorem OpRow.op_of_matches {r : OpRow} {x : Word} (h : r.matches x = true)
    (hm : r.mask &&& 0xFF000000#32 = 0xFF000000#32) : x &&& 0xFF000000#32 = r.value &&& 0xFF000000#32 := by
  simp only [OpRow.matches, beq_iff_eq] at h
  rw [← h, BitVec.and_assoc, hm]

/-- Two rows of the table that match one word are the same row (R94). -/
theorem tableCommands_unique {x : Word} {i j : Instr} (hi : i ∈ tableCommands x) (hj : j ∈ tableCommands x)
    (mi : i.row.matches x = true) (mj : j.row.matches x = true) : i = j := by
  have key : ∀ k : Instr, k.row.mask &&& 0xFF000000#32 = 0xFF000000#32 := by
    intro k; cases k <;> simp only [Instr.row] <;> decide
  have e := (OpRow.op_of_matches mi (key i)).symm.trans (OpRow.op_of_matches mj (key j))
  simp only [tableCommands, List.mem_cons, List.not_mem_nil, or_false] at hi hj
  rcases hi with rfl | rfl | rfl | rfl | rfl | rfl | rfl | rfl | rfl <;>
    rcases hj with rfl | rfl | rfl | rfl | rfl | rfl | rfl | rfl | rfl <;>
    first
    | rfl
    | exact absurd e (by simp only [Instr.row]; decide)

/-- What `decode` answers is the one row of the table that matches, with its fields (R94, R96). -/
theorem decode_eq_ok {x : Word} {i : Instr} :
    decode x = .ok i ↔ i ∈ tableCommands x ∧ i.row.matches x = true := by
  unfold decode
  constructor
  · intro h
    split at h
    · rename_i j hj
      cases h
      exact ⟨List.mem_of_find?_eq_some hj, List.find?_some (p := fun k : Instr => k.row.matches x) hj⟩
    · split at h <;> cases h
  · rintro ⟨hi, mi⟩
    split
    · rename_i j hj
      rw [tableCommands_unique hi (List.mem_of_find?_eq_some hj) mi (List.find?_some (p := fun k : Instr => k.row.matches x) hj)]
    · rename_i hn
      exact absurd mi (List.find?_eq_none.mp hn i hi)

end Sys2Proof
end

