-- ==== Sys2Proof/Laws/Exec.lean ====
section
/-! SUPPORT. What a command that answers next can have done, said once for all nine: it failed with one of its codes and left the rest alone, or it completed and changed only what its rule names. -/

namespace Sys2Proof.Machine

open Sys2Proof

/-- The codes each command's meaning can raise. -/
def raisedBy : Instr → List ErrCode
  | .nop => []
  | .rq _ => [.param, .shift, .zp]
  | .rqpc _ _ => [.param, .shift, .zp]
  | .rqm _ _ => [.null, .align, .param, .shift, .zp]
  | .winit => [.null, .align, .param, .zp, .size]
  | .wadv _ => [.state, .param]
  | .wrd _ _ => [.state, .param]
  | .wclose => []
  | .sizeq => [.param, .stride, .size]

/-- Loading lines changes only the ring and the window's cursor. -/
theorem loadLines_frame {n : Nat} {s t : State} (h : loadLines n s = .ok t) :
    t = { s with ring := t.ring, win := t.win } := by
  induction n generalizing s with
  | zero => cases h; rfl
  | succ n ih =>
    unfold loadLines at h
    split at h
    · cases h
    · obtain ⟨line, -, rfl⟩ := loadNextLine_ok ‹_›
      rw [ih h]

theorem scalarRescale_frame (m sh : Word) (a : AccWidth) (s : State) :
    (∃ e, (e = .param ∨ e = .shift ∨ e = .zp) ∧ scalarRescale m sh a s = s.fail e) ∨
    ∃ lo hi, scalarRescale m sh a s = State.succeed { s with resultLo := lo, resultHi := hi } := by
  rcases scalarRescale_cases m sh a s with ⟨e, he, h⟩ | ⟨fmt, -, h⟩
  · exact .inl ⟨e, checkQ_error he, h⟩
  · exact .inr ⟨_, _, h⟩

theorem rqmCheckScale_error {perch : Bool} {s : State} {e : ErrCode} (h : rqmCheckScale perch s = some e) :
    e = .param ∨ e = .shift := by
  unfold rqmCheckScale at h
  repeat' split at h
  all_goals cases h
  all_goals simp

theorem rqmCheck_error {perch : Bool} {a : AccWidth} {s : State} {e : ErrCode} (h : rqmCheck perch a s = .error e) :
    e ∈ raisedBy (.rqm perch a) := by
  unfold rqmCheck at h
  split at h
  · cases h; simp [raisedBy]
  · split at h
    · cases h; simp [raisedBy]
    · split at h
      · cases h; simp [raisedBy]
      · split at h
        · cases h
          rcases rqmCheckScale_error ‹_› with rfl | rfl <;> simp [raisedBy]
        · split at h
          · cases h; simp [raisedBy]
          · cases h

theorem winitCheck_error {c : Params} {g : Regs} {e : ErrCode} (h : winitCheck c g = some e) : e ∈ raisedBy .winit := by
  unfold winitCheck at h
  simp only at h
  repeat' split at h
  all_goals cases h
  all_goals simp [raisedBy]

theorem wadvCheck_error {n : Nat} {w : Window} {e : ErrCode} (h : wadvCheck n w = some e) : e ∈ raisedBy (.wadv n) := by
  unfold wadvCheck at h
  repeat' split at h
  all_goals cases h
  all_goals simp [raisedBy]

theorem wrdCheck_error {r k : Nat} {w : Window} {e : ErrCode} (h : wrdCheck r k w = some e) : e ∈ raisedBy (.wrd r k) := by
  unfold wrdCheck at h
  repeat' split at h
  all_goals cases h
  all_goals simp [raisedBy]

theorem sizeqCheck_error {c : Params} {g : Regs} {e : ErrCode} (h : sizeqCheck c g = some e) : e ∈ raisedBy .sizeq := by
  unfold sizeqCheck at h
  repeat' split at h
  all_goals cases h
  all_goals simp [raisedBy]

/-- Every command that answers next, by what it changed. -/
theorem exec_next {i : Instr} {s t : State} (h : exec i s = .next t) :
    (∃ e ∈ raisedBy i, t = s.fail e) ∨
    (∃ lo hi, t = State.succeed { s with resultLo := lo, resultHi := hi } ∧
      ((∃ a, i = .rq a) ∨ (∃ ch a, i = .rqpc ch a) ∨ (∃ r k, i = .wrd r k) ∨ i = .sizeq)) ∨
    (∃ m, t = State.succeed { s with mem := m } ∧ ∃ p a, i = .rqm p a) ∨
    (t = State.succeed { s with win := winitWindow s.regs, ring := [], ringGen := s.ringGen + 1 } ∧ i = .winit) ∨
    (∃ u, t = State.succeed { s with win := u.win, ring := u.ring } ∧ ∃ n, i = .wadv n ∧ loadLines n s = .ok u) ∨
    (t = State.succeed { s with win := { s.win with isOpen := false, head := 0, valid := 0, top := 0 } } ∧ i = .wclose) ∨
    (t = s.succeed ∧ i = .nop) := by
  cases i with
  | nop => cases h; simp
  | rq a =>
    cases h
    rcases scalarRescale_frame s.regs.qmult s.regs.qshift a s with ⟨e, he, h⟩ | ⟨lo, hi, h⟩
    · exact .inl ⟨e, by simpa [raisedBy] using he, h⟩
    · exact .inr (.inl ⟨lo, hi, h, .inl ⟨a, rfl⟩⟩)
  | rqpc ch a =>
    cases h
    split
    · exact .inl ⟨.param, by simp [raisedBy], rfl⟩
    · rcases scalarRescale_frame (pcMultAt s ch) (pcShiftAt s ch) a s with ⟨e, he, h⟩ | ⟨lo, hi, h⟩
      · exact .inl ⟨e, by simpa [raisedBy] using he, h⟩
      · exact .inr (.inl ⟨lo, hi, h, .inr (.inl ⟨ch, a, rfl⟩)⟩)
  | rqm p a =>
    rcases execRqm_next h with ⟨e, he, rfl⟩ | ⟨fmt, m, -, -, rfl⟩
    · exact .inl ⟨e, rqmCheck_error he, rfl⟩
    · exact .inr (.inr (.inl ⟨m, rfl, p, a, rfl⟩))
  | winit =>
    rcases execWinit_next h with ⟨e, he, rfl⟩ | ⟨-, rfl⟩
    · exact .inl ⟨e, winitCheck_error he, rfl⟩
    · exact .inr (.inr (.inr (.inl ⟨rfl, rfl⟩)))
  | wadv n =>
    rcases execWadv_next h with ⟨e, he, rfl⟩ | ⟨u, -, hu, rfl⟩
    · exact .inl ⟨e, wadvCheck_error he, rfl⟩
    · refine .inr (.inr (.inr (.inr (.inl ⟨u, ?_, n, rfl, hu⟩))))
      exact congrArg State.succeed (loadLines_frame hu)
  | wrd r k =>
    cases h
    split
    · exact .inl ⟨_, wrdCheck_error ‹_›, rfl⟩
    · exact .inr (.inl ⟨_, _, rfl, .inr (.inr (.inl ⟨r, k, rfl⟩))⟩)
  | wclose => cases h; exact .inr (.inr (.inr (.inr (.inr (.inl ⟨rfl, rfl⟩)))))
  | sizeq =>
    cases h
    split
    · exact .inl ⟨_, sizeqCheck_error ‹_›, rfl⟩
    · exact .inr (.inl ⟨_, _, rfl, .inr (.inr (.inr rfl))⟩)

end Sys2Proof.Machine
end

