-- ==== Sys2Proof/Laws/Memory.lean ====
section
/-! SUPPORT. System memory: what one byte, a word and a store read back as, and that the canonical form is kept. -/

namespace Sys2Proof.Machine

open Sys2Proof

/-! ### One byte -/

theorem memRead1_of_lt {lo a : Nat} {m : Memory} (h : memWfFrom lo m = true) (ha : a < lo) :
    memRead1 m a = memDefault := by
  induction m generalizing lo with
  | nil => rfl
  | cons p m ih =>
    obtain ⟨b, u⟩ := p
    simp only [memWfFrom, Bool.and_eq_true, decide_eq_true_eq] at h
    rw [memRead1, if_neg (by omega)]
    exact ih h.2 (by omega)

/-- A canonical memory read after a write of one byte. -/
theorem memRead1_memWrite1 {lo : Nat} {m : Memory} (h : memWfFrom lo m = true) (a b : Nat) (v : Byte) :
    memRead1 (memWrite1 m a v) b = if b = a then v else memRead1 m b := by
  induction m generalizing lo with
  | nil =>
    by_cases hv : v = memDefault <;> by_cases hb : b = a <;> simp [memWrite1, memRead1, hv, hb]
  | cons p m ih =>
    obtain ⟨c, u⟩ := p
    simp only [memWfFrom, Bool.and_eq_true, decide_eq_true_eq] at h
    have hlo := memRead1_of_lt (a := a) h.2
    have ih := ih h.2
    simp only [memWrite1]
    rcases Nat.lt_trichotomy a c with hac | hac | hac
    · rw [if_pos hac]
      split
      · rename_i hv
        by_cases hb : b = a
        · subst hb; rw [memRead1, if_neg (by omega), hlo (by omega), if_pos rfl, hv]
        · rw [if_neg hb]
      · rw [memRead1]
    · subst hac
      rw [if_neg (by omega), if_pos rfl]
      split
      · rename_i hv
        by_cases hb : b = a
        · subst hb; rw [hlo (by omega), if_pos rfl, hv]
        · rw [if_neg hb, memRead1, if_neg hb]
      · rw [memRead1]
        by_cases hb : b = a <;> simp [memRead1, hb]
    · rw [if_neg (by omega), if_neg (by omega), memRead1, ih]
      by_cases hb : b = c
      · subst hb; rw [if_pos rfl, if_neg (by omega), memRead1, if_pos rfl]
      · rw [if_neg hb, memRead1, if_neg hb]

/-- A write of one byte leaves every other byte alone, in any memory. -/
theorem memRead1_memWrite1_ne (m : Memory) {a b : Nat} (h : b ≠ a) (v : Byte) :
    memRead1 (memWrite1 m a v) b = memRead1 m b := by
  induction m with
  | nil => by_cases hv : v = memDefault <;> simp [memWrite1, memRead1, hv, h]
  | cons p m ih =>
    obtain ⟨c, u⟩ := p
    simp only [memWrite1]
    split
    · split
      · rfl
      · rw [memRead1, if_neg h]
    · split
      · rename_i _ hac
        subst hac
        split <;> simp [memRead1, h]
      · rw [memRead1, memRead1, ih]

theorem memWfFrom_mono {lo lo' : Nat} {m : Memory} (h : memWfFrom lo m = true) (hl : lo' ≤ lo) :
    memWfFrom lo' m = true := by
  cases m with
  | nil => rfl
  | cons p m =>
    simp only [memWfFrom, Bool.and_eq_true, decide_eq_true_eq] at h ⊢
    exact ⟨⟨⟨by omega, h.1.1.2⟩, h.1.2⟩, h.2⟩

/-- A write of one byte keeps the canonical form. -/
theorem memWfFrom_memWrite1 {lo : Nat} {m : Memory} (h : memWfFrom lo m = true) {a : Nat} (ha : a < 2 ^ 32)
    (hlo : lo ≤ a) (v : Byte) : memWfFrom lo (memWrite1 m a v) = true := by
  induction m generalizing lo with
  | nil =>
    simp only [memWrite1]
    split
    · rfl
    · rename_i hv
      simpa [memWfFrom, hlo, bne_iff_ne, hv] using ha
  | cons p m ih =>
    obtain ⟨c, u⟩ := p
    have h' := h
    simp only [memWfFrom, Bool.and_eq_true, decide_eq_true_eq, bne_iff_ne, ne_eq] at h'
    obtain ⟨⟨⟨h1, h2⟩, h3⟩, h4⟩ := h'
    simp only [memWrite1]
    rcases Nat.lt_trichotomy a c with hac | hac | hac
    · rw [if_pos hac]
      split
      · exact h
      · rename_i hv
        simp only [memWfFrom, Bool.and_eq_true, decide_eq_true_eq, bne_iff_ne, ne_eq]
        exact ⟨⟨⟨hlo, ha⟩, hv⟩, ⟨⟨⟨by omega, h2⟩, h3⟩, h4⟩⟩
    · subst hac
      rw [if_neg (by omega), if_pos rfl]
      split
      · exact memWfFrom_mono h4 (by omega)
      · rename_i hv
        simp only [memWfFrom, Bool.and_eq_true, decide_eq_true_eq, bne_iff_ne, ne_eq]
        exact ⟨⟨⟨hlo, ha⟩, hv⟩, h4⟩
    · rw [if_neg (by omega), if_neg (by omega)]
      simp only [memWfFrom, Bool.and_eq_true, decide_eq_true_eq, bne_iff_ne, ne_eq]
      exact ⟨⟨⟨h1, h2⟩, h3⟩, ih h4 (by omega)⟩

theorem memWf_memWrite1 {m : Memory} (h : Memory.wf m = true) {a : Nat} (ha : a < 2 ^ 32) (v : Byte) :
    Memory.wf (memWrite1 m a v) = true :=
  memWfFrom_memWrite1 h ha (Nat.zero_le _) v

/-- Canonical memories that read alike are equal. -/
theorem memory_ext {lo : Nat} {m m' : Memory} (h : memWfFrom lo m = true) (h' : memWfFrom lo m' = true)
    (e : ∀ a, memRead1 m a = memRead1 m' a) : m = m' := by
  induction m generalizing lo m' with
  | nil =>
    cases m' with
    | nil => rfl
    | cons p m' =>
      obtain ⟨b, u⟩ := p
      simp only [memWfFrom, Bool.and_eq_true, decide_eq_true_eq, bne_iff_ne, ne_eq] at h'
      have := e b
      simp only [memRead1, if_true] at this
      exact absurd this.symm h'.1.2
  | cons p m ih =>
    obtain ⟨c, u⟩ := p
    have hh := h
    simp only [memWfFrom, Bool.and_eq_true, decide_eq_true_eq, bne_iff_ne, ne_eq] at hh
    cases m' with
    | nil =>
      have := e c
      simp only [memRead1, if_true] at this
      exact absurd this hh.1.2
    | cons q m' =>
      obtain ⟨b, v⟩ := q
      have hh' := h'
      simp only [memWfFrom, Bool.and_eq_true, decide_eq_true_eq, bne_iff_ne, ne_eq] at hh'
      rcases Nat.lt_trichotomy c b with hcb | hcb | hcb
      · have := e c
        rw [memRead1, if_pos rfl, memRead1, if_neg (by omega), memRead1_of_lt hh'.2 (by omega)] at this
        exact absurd this hh.1.2
      · subst hcb
        have huv := e c
        simp only [memRead1, if_true] at huv
        subst huv
        rw [ih hh.2 hh'.2]
        intro a
        by_cases ha : a = c
        · subst ha; rw [memRead1_of_lt hh.2 (by omega), memRead1_of_lt hh'.2 (by omega)]
        · have := e a
          simpa only [memRead1, if_neg ha] using this
      · have := e b
        rw [memRead1, if_neg (by omega), memRead1_of_lt hh.2 (by omega), memRead1, if_pos rfl] at this
        exact absurd this.symm hh'.1.2

/-! ### Words -/

/-- A store keeps the canonical form. -/
theorem memWf_memStore {m : Memory} (h : Memory.wf m = true) (addr n v : Nat) : Memory.wf (memStore m addr n v) = true := by
  induction n generalizing m addr v with
  | zero => exact h
  | succ n ih => exact ih (memWf_memWrite1 h (Nat.mod_lt _ (by decide)) _) _ _

theorem memWf_memWrite {m : Memory} (h : Memory.wf m = true) (addr n : Nat) (v : Int) :
    Memory.wf (memWrite m addr n v) = true :=
  memWf_memStore h addr n _

/-- A store leaves every byte outside it alone, in any memory. -/
theorem memRead1_memStore_ne {m : Memory} {addr n v b : Nat} (hw : addr + n ≤ 2 ^ 32) (h : b < addr ∨ addr + n ≤ b) :
    memRead1 (memStore m addr n v) b = memRead1 m b := by
  induction n generalizing m addr v with
  | zero => rfl
  | succ n ih =>
    rw [memStore, ih (by omega) (by omega), memRead1_memWrite1_ne _ (by rw [Nat.mod_eq_of_lt (by omega)]; omega)]

/-- A store's byte `k` is the byte `k` of the stored value. -/
theorem memRead1_memStore_eq {m : Memory} (hm : Memory.wf m = true) {addr n v k : Nat} (hw : addr + n ≤ 2 ^ 32)
    (hk : k < n) : (memRead1 (memStore m addr n v) (addr + k)).toNat = v / 256 ^ k % 256 := by
  induction n generalizing m addr v k with
  | zero => omega
  | succ n ih =>
    have ha : addr % 2 ^ 32 = addr := Nat.mod_eq_of_lt (by omega)
    have hm' := memWf_memWrite1 hm (a := addr % 2 ^ 32) (Nat.mod_lt _ (by decide)) (BitVec.ofNat 8 v)
    cases k with
    | zero =>
      rw [memStore, memRead1_memStore_ne (by omega) (by omega), ha, memRead1_memWrite1 hm, if_pos (by omega)]
      simp
    | succ k =>
      rw [memStore, show addr + (k + 1) = addr + 1 + k by omega, ih hm' (by omega) (by omega), Nat.div_div_eq_div_mul,
        Nat.pow_succ']

/-- Byte `k` of a word in memory is its bits `[8k+7:8k]` (R71). -/
theorem memRead_byte {m : Memory} {addr n k : Nat} (hw : addr + n ≤ 2 ^ 32) (hk : k < n) :
    memRead m addr n / 256 ^ k % 256 = (memRead1 m (addr + k)).toNat := by
  induction n generalizing addr k with
  | zero => omega
  | succ n ih =>
    have hb : (memRead1 m addr).toNat < 256 := (memRead1 m addr).isLt
    rw [memRead, Nat.mod_eq_of_lt (show addr < 2 ^ 32 by omega)]
    cases k with
    | zero => simp only [Nat.pow_zero, Nat.div_one, Nat.add_zero]; omega
    | succ k =>
      rw [Nat.pow_succ', ← Nat.div_div_eq_div_mul,
        show ((memRead1 m addr).toNat + 256 * memRead m (addr + 1) n) / 256 = memRead m (addr + 1) n by omega,
        ih (by omega) (by omega), show addr + 1 + k = addr + (k + 1) by omega]

/-- A word of `n` bytes lies below `256^n`. -/
theorem memRead_lt (m : Memory) (addr n : Nat) : memRead m addr n < 256 ^ n := by
  induction n generalizing addr with
  | zero => simp [memRead]
  | succ n ih =>
    have hb : (memRead1 m (addr % 2 ^ 32)).toNat < 256 := (memRead1 m _).isLt
    have := ih (addr + 1)
    rw [memRead, Nat.pow_succ]
    omega

/-- A word depends on its bytes only. -/
theorem memRead_congr {m m' : Memory} {addr n : Nat} (hw : addr + n ≤ 2 ^ 32)
    (h : ∀ k, k < n → memRead1 m (addr + k) = memRead1 m' (addr + k)) : memRead m addr n = memRead m' addr n := by
  induction n generalizing addr with
  | zero => rfl
  | succ n ih =>
    rw [memRead, memRead, Nat.mod_eq_of_lt (show addr < 2 ^ 32 by omega)]
    have h0 := h 0 (by omega)
    rw [Nat.add_zero] at h0
    rw [h0, ih (by omega)]
    intro k hk
    have := h (k + 1) (by omega)
    rwa [show addr + (k + 1) = addr + 1 + k by omega] at this

/-- A stored word reads back modulo its width. -/
theorem memRead_memStore {m : Memory} (hm : Memory.wf m = true) {addr n v : Nat} (hw : addr + n ≤ 2 ^ 32) :
    memRead (memStore m addr n v) addr n = v % 256 ^ n := by
  induction n generalizing m addr v with
  | zero => simp [memRead, Nat.mod_one]
  | succ n ih =>
    have ha : addr % 2 ^ 32 = addr := Nat.mod_eq_of_lt (by omega)
    have hm' := memWf_memWrite1 hm (a := addr % 2 ^ 32) (Nat.mod_lt _ (by decide)) (BitVec.ofNat 8 v)
    rw [memRead, memStore, ih hm' (by omega), ha, memRead1_memStore_ne (by omega) (by omega), memRead1_memWrite1 hm,
      if_pos rfl, Nat.pow_succ', Nat.mod_mul]
    simp

end Sys2Proof.Machine
end

