-- ==== Sys2Proof/Laws/PerInstr.lean ====
section
/-! SUPPORT. Per-instruction laws: the word of every well-formed command matches its own row of spec/30_encoding.md R94. -/

namespace Sys2Proof.Laws.EncodesItsRow

/-- The word of `i` matches the row of `i` (R92, R94, R99). -/
def Statement (i : Instr) : Prop := i.wf = true → i.row.matches (encode i) = true

theorem nop : Statement .nop := fun _ => by decide

theorem rq (accw : AccWidth) : Statement (.rq accw) := fun _ => by cases accw <;> decide

theorem rqpc (ch : Nat) (accw : AccWidth) : Statement (.rqpc ch accw) := fun _ => by
  simp only [OpRow.matches, Instr.row, beq_iff_eq, encode]
  apply BitVec.eq_of_getLsbD_eq
  intro i hi
  simp only [BitVec.getLsbD_and, BitVec.getLsbD_append]
  cases accw <;> interval_cases i <;> simp [AccWidth.bit]

theorem rqm (perch : Bool) (accw : AccWidth) : Statement (.rqm perch accw) := fun _ => by
  cases perch <;> cases accw <;> decide

theorem winit : Statement .winit := fun _ => by decide

theorem wadv (n : Nat) : Statement (.wadv n) := fun _ => by
  simp only [OpRow.matches, Instr.row, beq_iff_eq, encode]
  apply BitVec.eq_of_getLsbD_eq
  intro i hi
  simp only [BitVec.getLsbD_and, BitVec.getLsbD_append]
  interval_cases i <;> simp

theorem wrd (row col : Nat) : Statement (.wrd row col) := fun _ => by
  simp only [OpRow.matches, Instr.row, beq_iff_eq, encode]
  apply BitVec.eq_of_getLsbD_eq
  intro i hi
  simp only [BitVec.getLsbD_and, BitVec.getLsbD_append]
  interval_cases i <;> simp

theorem wclose : Statement .wclose := fun _ => by decide

theorem sizeq : Statement .sizeq := fun _ => by decide

end Sys2Proof.Laws.EncodesItsRow
end

