-- ==== Sys2Proof/Laws/Rqm.lean ====
section
/-! SUPPORT. RQM as a chain of memories (spec/40_rescale.md R128, spec/20_memory.md R80(1)): one memory after each element, and what a byte of each is. -/

namespace Sys2Proof.Machine

open Sys2Proof

/-- Memory after the first `n` elements. -/
def rqmMemory (perch : Bool) (a : AccWidth) (fmt : OutFmt) (s : State) : Nat → Memory
  | 0 => s.mem
  | n + 1 =>
    memWrite (rqmMemory perch a fmt s n) (rqmDstAddr s.regs n) (outBytes fmt)
      (rqmOutput perch a fmt s (rqmMemory perch a fmt s n) n)

/-- Completed elements leave the chain's memory. -/
theorem rqmElements_ok {perch : Bool} {a : AccWidth} {fmt : OutFmt} {s : State} {n : Nat} {m : Memory}
    (h : rqmElements perch a fmt s n = .ok m) : m = rqmMemory perch a fmt s n := by
  induction n generalizing m with
  | zero => cases h; rfl
  | succ n ih =>
    obtain ⟨u, hu, he⟩ := rqmElements_succ_ok h
    obtain ⟨-, -, rfl⟩ := rqmElement_ok he
    rw [ih hu, rqmMemory]

/-- Elements on ordinary memory complete. -/
theorem rqmElements_of_ordinary {perch : Bool} {a : AccWidth} {fmt : OutFmt} {s : State} {n : Nat}
    (h : ∀ i, i < n → busStop s.cfg (rqmSrcAddr s.regs i) (accBytes a) = none ∧
      busStop s.cfg (rqmDstAddr s.regs i) (outBytes fmt) = none) :
    rqmElements perch a fmt s n = .ok (rqmMemory perch a fmt s n) := by
  induction n with
  | zero => rfl
  | succ n ih =>
    simp only [rqmElements, ih fun i hi => h i (by omega)]
    rw [rqmElement_of_ordinary _ (h n (by omega)).1 (h n (by omega)).2, rqmMemory]

/-- A stopped element was stopped by one of its bytes. -/
theorem rqmElements_error {perch : Bool} {a : AccWidth} {fmt : OutFmt} {s : State} {n : Nat} {st : Stop}
    (h : rqmElements perch a fmt s n = .error st) : ∃ b, busStop1 s.cfg b = some st := by
  induction n with
  | zero => cases h
  | succ n ih =>
    unfold rqmElements at h
    split at h
    · cases h; exact ih ‹_›
    · unfold rqmElement at h
      split at h
      · cases h; exact busStop_eq_some (busRead_eq_error ‹_›)
      · exact busStop_eq_some (busWrite_eq_error h)

/-- A stopped element stops the command, whatever elements were to follow. -/
theorem rqmElements_error_of_le {perch : Bool} {a : AccWidth} {fmt : OutFmt} {s : State} {k n : Nat} {st : Stop}
    (h : rqmElements perch a fmt s k = .error st) (hk : k ≤ n) : rqmElements perch a fmt s n = .error st := by
  induction hk with
  | refl => exact h
  | step _ ih => rw [rqmElements, ih]

theorem rqmMemory_wf {perch : Bool} {a : AccWidth} {fmt : OutFmt} {s : State} (h : Memory.wf s.mem = true) (n : Nat) :
    Memory.wf (rqmMemory perch a fmt s n) = true := by
  induction n with
  | zero => exact h
  | succ n ih => exact memWf_memWrite ih _ _ _

/-- A byte outside every output so far is as it was. -/
theorem rqmMemory_ne {perch : Bool} {a : AccWidth} {fmt : OutFmt} {s : State} {n b : Nat}
    (hw : ∀ i, i < n → rqmDstAddr s.regs i + outBytes fmt ≤ 2 ^ 32)
    (hb : ∀ i, i < n → b < rqmDstAddr s.regs i ∨ rqmDstAddr s.regs i + outBytes fmt ≤ b) :
    memRead1 (rqmMemory perch a fmt s n) b = memRead1 s.mem b := by
  induction n with
  | zero => rfl
  | succ n ih =>
    rw [rqmMemory, memWrite, memRead1_memStore_ne (hw n (by omega)) (hb n (by omega)),
      ih (fun i hi => hw i (by omega)) fun i hi => hb i (by omega)]

/-- An output depends on memory only through its accumulator. -/
theorem rqmOutput_congr {perch : Bool} {a : AccWidth} {fmt : OutFmt} {s : State} {m m' : Memory} {i : Nat}
    (h : memRead m (rqmSrcAddr s.regs i) (accBytes a) = memRead m' (rqmSrcAddr s.regs i) (accBytes a)) :
    rqmOutput perch a fmt s m i = rqmOutput perch a fmt s m' i := by unfold rqmOutput; rw [h]

/-- `someBelow` is a bounded existential. -/
theorem someBelow_iff {p : Nat → Bool} {n : Nat} : someBelow p n = true ↔ ∃ i, i < n ∧ p i = true := by
  induction n with
  | zero => simp [someBelow]
  | succ n ih =>
    simp only [someBelow, Bool.or_eq_true, ih]
    constructor
    · rintro (⟨i, h, h'⟩ | h)
      · exact ⟨i, by omega, h'⟩
      · exact ⟨n, by omega, h⟩
    · rintro ⟨i, h, h'⟩
      rcases Nat.lt_or_ge i n with h2 | h2
      · exact .inl ⟨i, h2, h'⟩
      · rw [show n = i by omega]; exact .inr h'

end Sys2Proof.Machine
end

