-- ==== Sys2Proof/Laws/Step.lean ====
section
/-! SUPPORT. One step, inverted once: what a step that answers next can have been. Later proofs cite these and do not unfold `step`. -/

namespace Sys2Proof.Machine

open Sys2Proof

/-- A step is idle, or the next event from outside. -/
theorem step_next {s t : State} (h : step s = .next t) :
    (s.pending = [] ∧ t = s) ∨
    ∃ op rest, s.pending = op :: rest ∧ hostOp op { s with pending := rest } = .next t := by
  unfold step hostStep at h
  split at h
  · cases h; exact .inl ⟨‹_›, rfl⟩
  · exact .inr ⟨_, _, ‹_›, h⟩

/-- The CMD write: an illegal word fails, a legal one runs (R202). -/
theorem commandStep_next {x : Word} {s t : State} (h : commandStep x s = .next t) :
    (∃ e, decode x = .error e ∧ t = { s.fail .illegal with busy := false }) ∨
    ∃ i u, decode x = .ok i ∧ exec i { s with busy := true } = .next u ∧ t = { u with busy := false } := by
  unfold commandStep at h
  split at h
  · cases h; exact .inl ⟨_, ‹_›, rfl⟩
  · rename_i i hi
    unfold clearBusy at h
    split at h
    · cases h; exact .inr ⟨i, _, hi, ‹_›, rfl⟩
    · cases h
    · cases h

/-- What an event from outside that completes can have been. -/
theorem hostOp_next {op : HostOp} {s t : State} (h : hostOp op s = .next t) :
    (∃ off, op = .read .word off ∧ t = hostRead off s) ∨
    (∃ off v r, op = .write .word off v ∧ regAt off = some r ∧ r ≠ .cmd ∧ t = writeReg r v s) ∨
    (∃ off v, op = .write .word off v ∧ regAt off = none ∧ t = s) ∨
    (∃ off x, op = .write .word off x ∧ regAt off = some .cmd ∧ commandStep x s = .next t) ∨
    (∃ a b, op = .memWrite a b ∧ t = { s with mem := memWrite1 s.mem a.toNat b }) ∨
    (op = .reset ∧ t = hostReset s) := by
  unfold hostOp at h
  split at h
  · cases h
  · rename_i hb
    clear hb
    split at h
    · rename_i width off
      split at h
      · rename_i hd
        cases h
        simp only [accessDefined, Bool.and_eq_true, beq_iff_eq] at hd
        exact .inl ⟨off, by rw [hd.1], rfl⟩
      · cases h
    · rename_i width off v
      split at h
      · rename_i hd
        simp only [accessDefined, Bool.and_eq_true, beq_iff_eq] at hd
        obtain ⟨rfl, -⟩ := hd
        unfold hostWrite at h
        split at h
        · exact .inr (.inr (.inr (.inl ⟨off, v, rfl, ‹_›, h⟩)))
        · rename_i r hr _
          cases h
          refine .inr (.inl ⟨off, v, _, rfl, ‹_›, fun e => ?_, rfl⟩)
          subst e
          contradiction
        · cases h; exact .inr (.inr (.inl ⟨off, v, rfl, ‹_›, rfl⟩))
      · cases h
    · rename_i a b
      unfold hostMemWrite at h
      split at h
      · cases h
      · cases h; exact .inr (.inr (.inr (.inr (.inl ⟨a, b, rfl, rfl⟩))))
    · cases h; exact .inr (.inr (.inr (.inr (.inr ⟨rfl, rfl⟩))))

/-- What a register write changes: the registers and the two tables. -/
theorem writeReg_eq (r : Reg) (v : Word) (s : State) :
    writeReg r v s =
      { s with regs := (writeReg r v s).regs, pcMult := (writeReg r v s).pcMult, pcShift := (writeReg r v s).pcShift } := by
  cases r <;> simp only [writeReg] <;> first | rfl | (split <;> rfl)

/-- A register write adds to `pc_tab` only at PC_INDEX, and only below NCH_MAX (R35, R36). -/
theorem writeReg_pcMult (r : Reg) (v : Word) (s : State) :
    (writeReg r v s).pcMult = s.pcMult ∨
    (s.regs.pcIndex.toNat < s.cfg.nchMax ∧ (writeReg r v s).pcMult = tabSet s.pcMult s.regs.pcIndex.toNat v) := by
  cases r <;> try exact .inl rfl
  · simp only [writeReg, pcIndexValid, decide_eq_true_eq]
    split
    · exact .inr ⟨‹_›, rfl⟩
    · exact .inl rfl
  · simp only [writeReg]; split <;> exact .inl rfl

/-- The same for the shifts. -/
theorem writeReg_pcShift (r : Reg) (v : Word) (s : State) :
    (writeReg r v s).pcShift = s.pcShift ∨
    (s.regs.pcIndex.toNat < s.cfg.nchMax ∧ (writeReg r v s).pcShift = tabSet s.pcShift s.regs.pcIndex.toNat v) := by
  cases r <;> try exact .inl rfl
  · simp only [writeReg]; split <;> exact .inl rfl
  · simp only [writeReg, pcIndexValid, decide_eq_true_eq]
    split
    · exact .inr ⟨‹_›, rfl⟩
    · exact .inl rfl

end Sys2Proof.Machine
end

