-- ==== Sys2Proof/Laws/Table.lean ====
section
/-! SUPPORT. Sparse tables (`pc_tab`, the ring): what an entry reads as after a write, and that keys keep rising below the bound. -/

namespace Sys2Proof.Machine

open Sys2Proof

theorem tabGet_tabSet {α : Type} (t : List (Nat × α)) (k j : Nat) (y : α) :
    tabGet (tabSet t k y) j = if j = k then some y else tabGet t j := by
  induction t with
  | nil => simp only [tabSet, tabGet]
  | cons p t ih =>
    obtain ⟨i, x⟩ := p
    simp only [tabSet]
    rcases Nat.lt_trichotomy k i with h | h | h
    · rw [if_pos h, tabGet]
    · subst h
      rw [if_neg (by omega), if_pos rfl]
      by_cases hj : j = k <;> simp [tabGet, hj]
    · rw [if_neg (by omega), if_neg (by omega), tabGet, tabGet, ih]
      by_cases hj : j = i
      · subst hj; rw [if_pos rfl, if_pos rfl, if_neg (by omega)]
      · rw [if_neg hj, if_neg hj]

@[simp] theorem tabGet_tabSet_self {α : Type} (t : List (Nat × α)) (k : Nat) (y : α) :
    tabGet (tabSet t k y) k = some y := by rw [tabGet_tabSet, if_pos rfl]

theorem tabGet_tabSet_ne {α : Type} (t : List (Nat × α)) {k j : Nat} (h : j ≠ k) (y : α) :
    tabGet (tabSet t k y) j = tabGet t j := by rw [tabGet_tabSet, if_neg h]

theorem tabWfFrom_tabSet {α : Type} {lo hi k : Nat} {t : List (Nat × α)} (h : tabWfFrom lo hi t = true)
    (hlo : lo ≤ k) (hhi : k < hi) (y : α) : tabWfFrom lo hi (tabSet t k y) = true := by
  induction t generalizing lo with
  | nil => simp [tabSet, tabWfFrom, hlo, hhi]
  | cons p t ih =>
    obtain ⟨i, x⟩ := p
    have h' := h
    simp only [tabWfFrom, Bool.and_eq_true, decide_eq_true_eq] at h'
    obtain ⟨⟨h1, h2⟩, h3⟩ := h'
    simp only [tabSet]
    rcases Nat.lt_trichotomy k i with hk | hk | hk
    · rw [if_pos hk]
      simp only [tabWfFrom, Bool.and_eq_true, decide_eq_true_eq]
      exact ⟨⟨hlo, hhi⟩, ⟨⟨by omega, h2⟩, h3⟩⟩
    · subst hk
      rw [if_neg (by omega), if_pos rfl]
      simp only [tabWfFrom, Bool.and_eq_true, decide_eq_true_eq]
      exact ⟨⟨h1, h2⟩, h3⟩
    · rw [if_neg (by omega), if_neg (by omega)]
      simp only [tabWfFrom, Bool.and_eq_true, decide_eq_true_eq]
      exact ⟨⟨h1, h2⟩, ih h3 (by omega)⟩

end Sys2Proof.Machine
end

