-- ==== Sys2Proof/Laws/Window.lean ====
section
/-! SUPPORT. Loading lines (spec/41_window.md R162 to R164), said once: where the cursor stands after `k` lines, and what the ring's slots hold. Lines are counted from the oldest line resident before the command: line `q` has index `top + q` and sits in slot `(head + q) mod cap`. -/

namespace Sys2Proof.Machine

open Sys2Proof

/-- How many lines have been evicted when `k` lines have been loaded. -/
def evicted (w : Window) (k : Nat) : Nat := w.valid + k - w.cap

/-- The window when `k` lines have been loaded. -/
def winAfter (w : Window) (k : Nat) : Window :=
  { w with valid := w.valid + k - evicted w k, head := (w.head + evicted w k) % w.cap, top := w.top + evicted w k }

theorem winAfter_zero {w : Window} (hh : w.head < w.cap) (hv : w.valid ≤ w.cap) : winAfter w 0 = w := by
  unfold winAfter evicted
  simp only [show w.valid + 0 - w.cap = 0 by omega]
  rw [Nat.add_zero, Nat.mod_eq_of_lt hh]
  simp

theorem winAfter_succ {w : Window} {k : Nat} :
    winAdvanced (winAfter w k) = winAfter w (k + 1) := by
  unfold winAdvanced winAfter evicted
  by_cases h : w.valid + k < w.cap
  · rw [if_pos (show w.valid + k - (w.valid + k - w.cap) < w.cap by omega)]
    simp only [show w.valid + k - w.cap = 0 by omega, show w.valid + (k + 1) - w.cap = 0 by omega]
    rfl
  · rw [if_neg (show ¬w.valid + k - (w.valid + k - w.cap) < w.cap by omega)]
    have e : w.valid + (k + 1) - w.cap = w.valid + k - w.cap + 1 := by omega
    simp only [e, Nat.mod_add_mod, Nat.add_assoc]
    congr 1
    · omega
    · omega

theorem winCur_winAfter (w : Window) (k : Nat) : winCur (winAfter w k) = (w.head + (w.valid + k)) % w.cap := by
  unfold winCur winAfter evicted
  simp only [Nat.mod_add_mod]
  congr 1
  omega

/-- The next line to load is line `valid + k`. -/
theorem winAfter_next (w : Window) (k : Nat) :
    (winAfter w k).top + (winAfter w k).valid = w.top + ((w.valid + k : Nat) : Int) := by
  unfold winAfter evicted
  simp only
  omega

theorem loadCells_winAfter (c : Params) (m : Memory) (w : Window) (k : Nat) (l : Int) (n : Nat) :
    loadCells c m (winAfter w k) l n = loadCells c m w l n := by
  induction n with
  | zero => rfl
  | succ n ih =>
    simp only [loadCells, ih]
    rfl

/-- Two lines less than `cap` apart sit in different slots. -/
theorem slot_ne {a b c : Nat} (h1 : a < b) (h2 : b < a + c) : a % c ≠ b % c := by
  intro h
  have e1 := Nat.div_add_mod a c
  have e2 := Nat.div_add_mod b c
  rcases Nat.lt_or_ge (a / c) (b / c) with hq | hq
  · have := Nat.mul_le_mul_left c (show a / c + 1 ≤ b / c from hq)
    rw [Nat.mul_add] at this
    omega
  · have := Nat.mul_le_mul_left c hq
    omega

/-- `t` is what loading `k` lines makes of `s`. -/
structure LinesLoaded (s t : State) (k : Nat) : Prop where
  frame : t = { s with ring := t.ring, win := winAfter s.win k }
  new : ∀ q : Nat, evicted s.win k ≤ q → q < s.win.valid + k → s.win.valid ≤ q →
    ∃ cells, tabGet t.ring ((s.win.head + q) % s.win.cap) = some cells ∧ cells.length = s.win.len ∧
      ∀ p : Nat, p < s.win.len → ∃ b, cells[p]? = some b ∧ loadCell s.cfg s.mem s.win (s.win.top + q) p = .ok b
  old : ∀ q : Nat, evicted s.win k ≤ q → q < s.win.valid + k → q < s.win.valid →
    tabGet t.ring ((s.win.head + q) % s.win.cap) = tabGet s.ring ((s.win.head + q) % s.win.cap)
  keys : tabWfFrom 0 s.win.cap s.ring = true → tabWfFrom 0 s.win.cap t.ring = true

theorem LinesLoaded.zero {s : State} (hh : s.win.head < s.win.cap) (hv : s.win.valid ≤ s.win.cap) : LinesLoaded s s 0 where
  frame := by rw [winAfter_zero hh hv]
  new := fun q _ h2 h3 => by omega
  old := fun _ _ _ _ => rfl
  keys := id

theorem LinesLoaded.succ {s t u : State} {k : Nat} (hh : s.win.head < s.win.cap)
    (ha : LinesLoaded s t k) (h : loadNextLine t = .ok u) : LinesLoaded s u (k + 1) := by
  obtain ⟨cells, hl, rfl⟩ := loadNextLine_ok h
  have hf := ha.frame
  have hw : t.win = winAfter s.win k := by rw [hf]
  have hc : t.cfg = s.cfg := by rw [hf]
  have hm : t.mem = s.mem := by rw [hf]
  rw [hw, hc, hm, loadCells_winAfter, winAfter_next] at hl
  obtain ⟨hlen, hcells⟩ := loadCells_ok hl
  have hcur : winCur t.win = (s.win.head + (s.win.valid + k)) % s.win.cap := by rw [hw, winCur_winAfter]
  have apart : ∀ q, evicted s.win (k + 1) ≤ q → q < s.win.valid + k →
      (s.win.head + q) % s.win.cap ≠ winCur t.win := fun q h1 h2 => by
    rw [hcur]
    exact slot_ne (by omega) (by unfold evicted at h1; omega)
  have mono : ∀ q, evicted s.win (k + 1) ≤ q → evicted s.win k ≤ q := fun q h1 => by unfold evicted at *; omega
  refine ⟨?_, fun q h1 h2 h3 => ?_, fun q h1 h2 h3 => ?_, fun hr => ?_⟩
  · show _ = ({ s with ring := _, win := _ } : State)
    rw [hw, winAfter_succ]
    conv => lhs; rw [hf]
  · by_cases hq : q = s.win.valid + k
    · subst hq
      exact ⟨cells, by simp only [hcur, tabGet_tabSet_self], hlen, hcells⟩
    · obtain ⟨l, h4, h5⟩ := ha.new q (mono q h1) (by omega) h3
      exact ⟨l, by rw [tabGet_tabSet_ne _ (apart q h1 (by omega)), h4], h5⟩
  · rw [tabGet_tabSet_ne _ (apart q h1 (by omega))]
    exact ha.old q (mono q h1) (by omega) h3
  · exact tabWfFrom_tabSet (ha.keys hr) (Nat.zero_le _) (by rw [hcur]; exact Nat.mod_lt _ (by omega)) _

theorem LinesLoaded.of_loadLines {s t u : State} {j k : Nat} (hh : s.win.head < s.win.cap)
    (ha : LinesLoaded s t k) (h : loadLines j t = .ok u) : LinesLoaded s u (k + j) := by
  induction j generalizing t k with
  | zero => cases h; exact ha
  | succ j ih =>
    unfold loadLines at h
    split at h
    · cases h
    · have := ih (ha.succ hh ‹_›) h
      rwa [show k + 1 + j = k + (j + 1) by omega] at this

/-- What `n` loaded lines leave (R162 to R164). -/
theorem loadLines_ok {s u : State} {n : Nat} (hh : s.win.head < s.win.cap) (hv : s.win.valid ≤ s.win.cap)
    (h : loadLines n s = .ok u) : LinesLoaded s u n := by
  have := (LinesLoaded.zero hh hv).of_loadLines hh h
  rwa [Nat.zero_add] at this

/-- Lines whose source elements lie on ordinary memory load. -/
theorem loadLines_of_ordinary {s t : State} {j k : Nat} (hh : s.win.head < s.win.cap)
    (ha : LinesLoaded s t k)
    (ho : ∀ i p : Nat, i < k + j → p < s.win.len → winReal s.win (s.win.top + s.win.valid + i) p = true →
      busStop s.cfg (winAddr s.win (s.win.top + s.win.valid + i) p) (elemBytes s.win.elem) = none) :
    ∃ u, loadLines j t = .ok u := by
  induction j generalizing t k with
  | zero => exact ⟨t, rfl⟩
  | succ j ih =>
    have hf := ha.frame
    have hw : t.win = winAfter s.win k := by rw [hf]
    have hc : t.cfg = s.cfg := by rw [hf]
    have hm : t.mem = s.mem := by rw [hf]
    have hi : s.win.top + ((s.win.valid + k : Nat) : Int) = s.win.top + s.win.valid + (k : Nat) := by omega
    obtain ⟨cells, hl⟩ := loadCells_of_cells (c := s.cfg) (m := s.mem) (w := s.win)
      (l := s.win.top + s.win.valid + (k : Nat)) (n := s.win.len)
      fun p hp => loadCell_of_ordinary (ho k p (by omega) hp)
    have hn : ∃ v, loadNextLine t = .ok v := by
      unfold loadNextLine
      rw [hw, hc, hm, winAfter_next, loadCells_winAfter, hi, show (winAfter s.win k).len = s.win.len from rfl, hl]
      exact ⟨_, rfl⟩
    obtain ⟨v, hv'⟩ := hn
    obtain ⟨u, hu⟩ := ih (ha.succ hh hv') fun i p hi => ho i p (by omega)
    exact ⟨u, by simp only [loadLines, hv', hu]⟩

end Sys2Proof.Machine
end

