-- ==== Sys2Proof/Tests/Slice0.lean ====
section
/-! SUPPORT. The model's own tests: expected values from spec/95_test_vectors.md, the rules' examples and the patterns of spec/30_encoding.md R99; and for each obligation with hypotheses a witness that meets them. -/

namespace Sys2Proof.Tests

open Sys2Proof Sys2Proof.Machine Sys2Proof.Statement

/-! ### Helpers -/

/-- A view of the next state. -/
def after {α : Type} (o : Host.Outcome State Fault Refusal) (f : State → α) : Option α :=
  match o with
  | .next t => some (f t)
  | .fault _ => none
  | .refused _ => none

/-- ERRCODE, RESULT_HI and RESULT_LO. -/
def result (s : State) : Word × Word × Word := (s.errcode, s.resultHi, s.resultLo)

/-- ERRCODE, W_HEAD, W_CUR, W_VALID and W_TOP. -/
def windowStatus (s : State) : Word × Word × Word × Word × Word :=
  (s.errcode, readReg .wHead s, readReg .wCur s, readReg .wValid s, readReg .wTop s)

/-- The reset state of the SINGLE build. -/
def singleReset : State := { State.reset with cfg := { Params.reference with rmode := .single } }

/-- `setq m, s, z, fmt` and ACC_LO (30_encoding.md R98). -/
def setq (m sh z : Word) (fmt : BitVec 3) (acc : Word) (s : State) : State :=
  { s with regs := { s.regs with qmult := m, qshift := sh, qzp := z, qfmt := fmt, accLo := acc } }

/-- Vector M1 of section L2.3: accumulators 100, -300, 0 at 0x1000. -/
def rqmState : State :=
  { State.reset with
    regs := { Regs.reset with qmult := 0x40000000, qshift := 1, qzp := 10, rqSrc := 0x1000, rqSstr := 4,
                              rqDst := 0x2000, rqDstr := 1, rqCnt := 3, rqRun := 1, rqNch := 2 }
    pcMult := [(0, 0x40000000), (1, 0x40000000)], pcShift := [(0, 1), (1, 1)]
    mem := [(0x1000, 100), (0x1004, 0xD4), (0x1005, 0xFE), (0x1006, 0xFF), (0x1007, 0xFF)] }

/-- The same with another register set. -/
def rqmWith (f : Regs → Regs) : State := { rqmState with regs := f rqmState.regs }

/-- A platform where `n` bytes from `b` on do not answer as memory. -/
def platform (b n : Nat) (k : RegionKind) : Params :=
  { Params.reference with regions := [{ base := b, size := n, kind := k }] }

/-- M1 on such a platform. -/
def rqmOn (b n : Nat) (k : RegionKind) : State := { rqmState with cfg := platform b n k }

/-- M1 on a platform where the page of its accumulators does not answer as memory. -/
def rqmPlatform (k : RegionKind) : State := rqmOn 0x1000 0x100 k

/-- Setup A of section L2.4, before WINIT: `src(y, x) = 10y + x` at 0x3000. -/
def setupA : State :=
  { State.reset with
    regs := { Regs.reset with wSrc := 0x3000, wPitchY := 4, wPitchX := 1, wSrcH := 3, wSrcW := 4, wPadL := 1,
                              wPadP := 1, wLen := 6, wCap := 3, wPadv := -5 }
    mem := [(0x3001, 1), (0x3002, 2), (0x3003, 3), (0x3004, 10), (0x3005, 11), (0x3006, 12), (0x3007, 13),
            (0x3008, 20), (0x3009, 21), (0x300A, 22), (0x300B, 23)] }

/-- Setup A with another register set. -/
def setupWith (f : Regs → Regs) : State := { setupA with regs := f setupA.regs }

/-- The window of W2. -/
def windowA : Window :=
  { isOpen := true, src := 0x3000, py := 4, px := 1, h := 3, w := 4, padl := 1, padp := 1, len := 6, cap := 3,
    padv := -5, orient := .rows, elem := .s8, head := 0, valid := 0, top := -1 }

/-- The state after W3: lines -1, 0 and 1 in slots 0, 1 and 2. -/
def loadedA : State :=
  { setupA with
    win := { windowA with valid := 3 }
    ring := [(0, [0xFB, 0xFB, 0xFB, 0xFB, 0xFB, 0xFB]), (1, [0xFB, 0, 1, 2, 3, 0xFB]),
             (2, [0xFB, 10, 11, 12, 13, 0xFB])] }

/-- The state after W8: lines 1, 2 and 3 in slots 2, 0 and 1. -/
def slidA : State :=
  { setupA with
    win := { windowA with valid := 3, head := 2, top := 1 }
    ring := [(0, [0xFB, 20, 21, 22, 23, 0xFB]), (1, [0xFB, 0xFB, 0xFB, 0xFB, 0xFB, 0xFB]),
             (2, [0xFB, 10, 11, 12, 13, 0xFB])] }

/-- A SIZEQ geometry (section L2.5). -/
def geometry (k st d t p len : Word) : State :=
  { State.reset with
    regs := { Regs.reset with szK := k, szS := st, szD := d, szT := t, szPadded := p, wLen := len } }

/-! ### Well-formedness: an operand that does not fit its field (R93) -/

theorem test_wf_rqpc_ch : Instr.wf (.rqpc 65536 .acc32) = false := by decide
theorem test_wf_wadv_n : Instr.wf (.wadv 65536) = false := by decide
theorem test_wf_wrd_row : Instr.wf (.wrd 4096 0) = false := by decide
theorem test_wf_wrd_col : Instr.wf (.wrd 0 4096) = false := by decide

/-! ### Decoding: words written out bit by bit from the patterns of R99 -/

theorem test_decode_nop : decode 0b00000000000000000000000000000000 = .ok .nop := by decide
theorem test_decode_rq : decode 0b00000001000000000000000000000001 = .ok (.rq .acc64) := by decide
theorem test_decode_rqpc : decode 0b00000010000000000000001100000001 = .ok (.rqpc 3 .acc64) := by decide
theorem test_decode_rqpc_top : decode 0b00000010100000000000000000000000 = .ok (.rqpc 32768 .acc32) := by decide
theorem test_decode_rqm : decode 0b00000011000000000000000000000010 = .ok (.rqm true .acc32) := by decide
theorem test_decode_rqm_acc : decode 0b00000011000000000000000000000001 = .ok (.rqm false .acc64) := by decide
theorem test_decode_winit : decode 0b00010000000000000000000000000000 = .ok .winit := by decide
theorem test_decode_wadv : decode 0b00010001000000001000000000000001 = .ok (.wadv 32769) := by decide
theorem test_decode_wrd : decode 0b00010010000000000010000000000101 = .ok (.wrd 2 5) := by decide
theorem test_decode_wclose : decode 0b00010011000000000000000000000000 = .ok .wclose := by decide
theorem test_decode_sizeq : decode 0b00010100000000000000000000000000 = .ok .sizeq := by decide
theorem test_decode_reserved_bit : decode 0b00000010000000000000000100000010 = .error .reservedBits := by decide
theorem test_decode_reserved_op : decode 0b00000100000000000000000000000000 = .error .reservedOpcode := by decide
/-- R99's examples: `wrd 2, 5` and `rqpc 3, acc64`. -/
theorem test_encode_examples : encode (.wrd 2 5) = 0x12002005 ∧ encode (.rqpc 3 .acc64) = 0x02000301 := by decide
theorem test_decodeTableWord : decodeTableWord 32 0x12002005 = some (.wrd 2 5) := by decide
theorem test_decodeTableWord_illegal : decodeTableWord 32 0x15000000 = none := by decide

/-! ### Commands -/

/-- X14 to X20, and P5 steps 1 and 2: an illegal word leaves ERRCODE = -8 and STATUS = 2. -/
theorem test_illegal_word :
    after (step (State.reset.withFetchWord 32 0x11010000)) (fun t => (t.errcode, readReg .status t)) =
      some (0xFFFFFFF8, 2) := by decide
/-- R205's example. -/
theorem test_nop_clears :
    after (step ({ State.reset with errcode := -4, err := true }.withFetchWord 32 0x00000000))
      (fun t => (t.errcode, readReg .status t)) = some (0, 0) := by decide
/-- V10, DOUBLE: -5 · 2^30, s = -1 gives -2. -/
theorem test_rq_double :
    after (step ((setq 0x40000000 (-1) 0 4 (-5) State.reset).withFetchWord 32 0x01000000)) result =
      some (0, 0xFFFFFFFF, 0xFFFFFFFE) := by decide
/-- V10, SINGLE: -1. -/
theorem test_rq_single :
    after (step ((setq 0x40000000 (-1) 0 4 (-5) singleReset).withFetchWord 32 0x01000000)) result =
      some (0, 0xFFFFFFFF, 0xFFFFFFFF) := by decide
/-- R127's example, DOUBLE, with QMULT and QSHIFT illegal, which RQPC does not read. -/
theorem test_rqpc_entry :
    after (step ((setq (-1) 99 0 4 5
        { State.reset with pcMult := [(3, 0x40000000)], pcShift := [(3, -1)] }).withFetchWord 32 0x02000300)) result =
      some (0, 0, 2) := by decide
/-- E10: CH = 16 with NCH_MAX = 16. -/
theorem test_rqpc_channel_range :
    after (step (State.reset.withFetchWord 32 0x02001000)) result = some (-3, 0, 0) := by decide
/-- M1: the bytes 6E 80 0A. -/
theorem test_rqm_bytes :
    after (exec (.rqm false .acc32) rqmState)
      (fun t => (t.errcode, memRead1 t.mem 0x2000, memRead1 t.mem 0x2001, memRead1 t.mem 0x2002)) =
      some (0, 0x6E, 0x80, 0x0A) := by decide
/-- M6: RQ_SRC = 0x1004 is not a multiple of 8. -/
theorem test_rqm_acc64_alignment :
    after (exec (.rqm false .acc64) (rqmWith fun g => { g with rqSrc := 0x1004, rqSstr := 8 })) (·.errcode) =
      some (-2) := by decide
/-- W2: W_TOP = -1. -/
theorem test_winit_opens :
    after (exec .winit setupA) (fun t => (readReg .wState t, windowStatus t)) = some (1, 0, 0, 0, 0, 0xFFFFFFFF) := by
  decide
/-- W38: the parameter check comes before those of the pad value and the size. -/
theorem test_winit_check_order :
    after (exec .winit (setupWith fun g => { g with wSrcH := 0, wPadv := 999, wCap := 0 })) (·.errcode) = some (-3) := by
  decide
/-- W3: three lines fill the ring, top padding first. -/
theorem test_wadv_fills :
    after (exec (.wadv 3) { setupA with win := windowA }) (fun t => (t.ring, t.win.top)) =
      some (loadedA.ring, -1) := by decide
/-- W8: two lines evict the two oldest. -/
theorem test_wadv_evicts :
    after (exec (.wadv 2) loadedA) (fun t => (t.ring, windowStatus t)) = some (slidA.ring, 0, 2, 2, 3, 1) := by decide
/-- W10: line 2 sits in slot 0. -/
theorem test_wrd_wraps : after (exec (.wrd 1 4) slidA) result = some (0, 0, 23) := by decide
/-- W11: a padding line, sign-extended. -/
theorem test_wrd_padding : after (exec (.wrd 2 2) slidA) result = some (0, 0xFFFFFFFF, 0xFFFFFFFB) := by decide
/-- W15. -/
theorem test_wclose :
    after (exec .wclose slidA) (fun t => (readReg .wState t, windowStatus t)) = some (0, 0, 0, 0, 0, 0) := by decide
/-- Z3: capacity 5, 55 bytes. -/
theorem test_sizeq_capacity : after (exec .sizeq (geometry 3 2 1 2 9 11)) result = some (0, 5, 55) := by decide
/-- Z15: the reach exceeds the padded input. -/
theorem test_sizeq_reach : after (exec .sizeq (geometry 7 1 1 1 5 5)) result = some (-7, 0, 0) := by decide

/-! ### Host accesses -/

/-- H1 and H3. -/
theorem test_read_id :
    readReg .id State.reset = 0x001F0001 ∧
    readReg .id { State.reset with cfg := { Params.reference with frac := .f30 } } = 0x001E0001 := by decide
/-- H7: RAZ/WI bits of W_FMT. -/
theorem test_write_wfmt :
    after (step { State.reset with pending := [.write .word 0xA8 0xFFFFFFFF] }) (readReg .wFmt) = some 7 := by decide
/-- H9: PC_INDEX = 16 is out of range. -/
theorem test_write_pcMult_range :
    after (step { State.reset with
                    regs := { Regs.reset with pcIndex := 16 }, pending := [.write .word 0x3C 5] })
      (fun t => (t.pcMult, readReg .pcMult t)) = some ([], 0) := by decide
/-- H12: STATUS is read-only. -/
theorem test_write_status :
    after (step { State.reset with pending := [.write .word 0x0C 3] }) (readReg .status) = some 0 := by decide

/-! ### Memory -/

theorem test_memory_canonical :
    Memory.wf [(0, 1), (4, 2)] = true ∧ Memory.wf [(4, 2), (0, 1)] = false ∧ Memory.wf [(0, 0)] = false ∧
    Memory.wf [(4294967296, 1)] = false := by decide
/-- Writing what an unlisted byte reads as removes the entry. -/
theorem test_memory_removes : memWrite1 [(4, 2), (8, 3)] 4 0 = [(8, 3)] := by decide
/-- R71. -/
theorem test_memory_little_endian : memRead [(16, 0x78), (17, 0x56), (18, 0x34), (19, 0x12)] 16 4 = 0x12345678 := by
  decide

/-! ### Witnesses: for each obligation, a state and operands that meet the hypotheses of each clause -/

theorem witness_DecodeOfEncodeIsIdentity :
    Instr.wf (.rqpc 65535 .acc64) = true ∧ Instr.wf (.wadv 65535) = true ∧ Instr.wf (.wrd 4095 4095) = true ∧
    Instr.wf (.rqm true .acc32) = true := by decide

theorem witness_EncodeOfDecodeIsIdentity :
    decode 0x12FFFFFF = .ok (.wrd 4095 4095) ∧ decode 0x02FFFF01 = .ok (.rqpc 65535 .acc64) := by decide

theorem witness_CmdWrite_illegal : decode 0x00000001 = .error .reservedBits := by decide
theorem witness_CmdWrite_next :
    decode 0x11000002 = .ok (.wadv 2) ∧ (after (exec (.wadv 2) { loadedA with busy := true }) (·.errcode)) = some 0 := by
  decide
theorem witness_CmdWrite_fault :
    decode 0x03000000 = .ok (.rqm false .acc32) ∧
    exec (.rqm false .acc32) { rqmPlatform .busError with busy := true } = .fault (.busError 0x1000) :=
  ⟨by decide, rfl⟩
theorem witness_CmdWrite_refused :
    decode 0x03000000 = .ok (.rqm false .acc32) ∧
    exec (.rqm false .acc32) { rqmPlatform .device with busy := true } = .refused (.notOrdinaryMemory 0x1000) :=
  ⟨by decide, rfl⟩

theorem witness_IllegalWord : matchesNoRow 0x00000001 ∧ matchesNoRow 0x11010000 ∧ matchesNoRow 0xFF000000 := by
  unfold matchesNoRow; decide

theorem witness_IdleBlock : loadedA.pending = [] := rfl

theorem witness_WindowStatusRegisters : slidA.win.isOpen = true ∧ setupA.win.isOpen = false := by decide

theorem witness_IdentificationRegisters : ∃ t, step (State.reset.withFetchWord 32 0x10000000) = .next t := ⟨_, rfl⟩

theorem witness_WrittenRegister :
    regAt 0x20 = some .accLo ∧ isStored .accLo = true ∧ regAt 0x38 = some .pcIndex ∧ isStored .pcIndex = true ∧
    regAt 0xD0 = some .szPadded ∧ isStored .szPadded = true ∧
    (Reg.qfmt ≠ .pcIndex ∧ (Reg.pcIndex = .pcIndex → Reg.qfmt ≠ .pcMult ∧ Reg.qfmt ≠ .pcShift)) := by decide

theorem witness_ReservedOffsets :
    ((0x64 : BitVec 8).toNat % 4 = 0 ∧ 0x64 ≤ (0x64 : BitVec 8).toNat ∧ (0x64 : BitVec 8).toNat ≤ 0x7C) ∧
    ((0x7C : BitVec 8).toNat % 4 = 0 ∧ 0x64 ≤ (0x7C : BitVec 8).toNat ∧ (0x7C : BitVec 8).toNat ≤ 0x7C) ∧
    ((0xD4 : BitVec 8).toNat % 4 = 0 ∧ 0xD4 ≤ (0xD4 : BitVec 8).toNat) ∧
    ((0xFC : BitVec 8).toNat % 4 = 0 ∧ 0xD4 ≤ (0xFC : BitVec 8).toNat) := by decide

/-- The index 15 is the last of 16, and 16 the first beyond. -/
theorem witness_PerChannelPorts :
    ({ Regs.reset with pcIndex := 15 } : Regs).pcIndex.toNat < State.reset.cfg.nchMax ∧
    State.reset.cfg.nchMax ≤ ({ Regs.reset with pcIndex := 16 } : Regs).pcIndex.toNat := by decide

theorem witness_OtherAccessShapes :
    AccessWidth.half ≠ .word ∧ (0x02 : BitVec 8).toNat % 4 ≠ 0 := by decide

/-- A state with BUSY = 1: only inside a command, or given from outside. -/
def busyState (op : HostOp) : State := { State.reset with busy := true, pending := [op] }

theorem witness_BusyBlock :
    (busyState (.read .word 0x0C)).busy = true ∧ (busyState (.read .word 0x0C)).pending = [.read .word 0x0C] ∧
    (busyState .reset).busy = true ∧ (busyState .reset).pending = [.reset] ∧ HostOp.reset ≠ .read .word 0x0C := by decide

/-- The top word of the address space, and a byte outside it on either side of a store. -/
theorem witness_MemoryWords :
    Memory.wf setupA.mem = true ∧ 0xFFFFFFFC + 4 ≤ 2 ^ 32 ∧ apart 0xFFFFFFFB 1 0xFFFFFFFC 4 ∧ apart 0x3004 1 0x3000 4 := by
  unfold apart; decide

theorem openBounds_loadedA : OpenBounds loadedA.cfg loadedA.win := by
  constructor <;> decide

theorem witness_CommandAccessesAreAligned :
    rqmAligned .acc64 .s16 { Regs.reset with rqSrc := 0x1008, rqSstr := 8, rqDst := 0x2002, rqDstr := 0xFFFFFFFE } ∧
    OpenBounds loadedA.cfg loadedA.win :=
  ⟨by unfold rqmAligned; decide, openBounds_loadedA⟩

theorem witness_RoundingIsNearest : (0 < 1 ∧ (0 : Int) ≤ 3) ∧ ((-3 : Int) ≤ 3) ∧ (2 ≤ 2) := by decide

theorem witness_RescaleFollowsTheBuildsRoundingMode :
    State.reset.cfg.rmode = .double ∧
    (singleReset.cfg.rmode = .single ∧ (31 : Int) ≤ singleReset.cfg.frac.toNat) ∧
    ({ Params.reference with rmode := .single, frac := .f30 } : Params).rmode = .single ∧
    (({ Params.reference with rmode := .single, frac := .f30 } : Params).frac.toNat : Int) < 31 := by decide

theorem witness_RescaleSaturates : (0 : Int) ≤ 0x40000000 ∧ (-5 : Int) ≤ 5 := by decide

theorem witness_RescaleOfZero : outMin .s8 ≤ -128 ∧ (-128 : Int) ≤ outMax .s8 := by decide

theorem witness_shiftRange : ((0 : Int) ≤ 31 ∧ (31 : Int) ≤ 31) ∧ (-31 : Int) ≤ -31 ∧ (-31 : Int) ≤ 31 := by decide

/-- The hypotheses of each clause of `scalarRescaleSpec`, at the ends of the ranges. -/
theorem witness_RqRescales :
    outFmtOf (setq 0 0 0 5 0 State.reset).regs.qfmt = none ∧
    (outFmtOf (setq 0x80000000 0 0 0 0 State.reset).regs.qfmt = some .s8 ∧
      (setq 0x80000000 0 0 0 0 State.reset).regs.qmult.toInt < 0) ∧
    (0 ≤ (setq 0x7FFFFFFF 32 0 0 0 State.reset).regs.qmult.toInt ∧
      31 < (setq 0x7FFFFFFF 32 0 0 0 State.reset).regs.qshift.toInt) ∧
    ((setq 0x7FFFFFFF (-32) 0 0 0 State.reset).regs.qshift.toInt < -31) ∧
    ((setq 0 31 128 0 0 State.reset).regs.qshift.toInt ≤ 31 ∧
      outMax .s8 < (setq 0 31 128 0 0 State.reset).regs.qzp.toInt) ∧
    (0 ≤ (setq 0x7FFFFFFF (-31) 127 0 0 State.reset).regs.qmult.toInt ∧
      -31 ≤ (setq 0x7FFFFFFF (-31) 127 0 0 State.reset).regs.qshift.toInt ∧
      (setq 0x7FFFFFFF (-31) 127 0 0 State.reset).regs.qshift.toInt ≤ 31 ∧
      outMin .s8 ≤ (setq 0x7FFFFFFF (-31) 127 0 0 State.reset).regs.qzp.toInt ∧
      (setq 0x7FFFFFFF (-31) 127 0 0 State.reset).regs.qzp.toInt ≤ outMax .s8) := by decide

/-- A state whose `pc_tab[15]` is written. -/
def channelState (m sh z : Word) (fmt : BitVec 3) : State :=
  setq 0 0 z fmt 5 { State.reset with pcMult := [(15, m)], pcShift := [(15, sh)] }

theorem witness_RqpcRescales :
    State.reset.cfg.nchMax ≤ 16 ∧ 15 < State.reset.cfg.nchMax ∧
    outFmtOf (channelState 0 0 0 5).regs.qfmt = none ∧
    (pcMultAt (channelState 0x80000000 0 0 0) 15).toInt < 0 ∧
    (0 ≤ (pcMultAt (channelState 0x7FFFFFFF 32 0 0) 15).toInt ∧
      31 < (pcShiftAt (channelState 0x7FFFFFFF 32 0 0) 15).toInt) ∧
    (0 ≤ (pcMultAt (channelState 0x7FFFFFFF 31 (-129) 0) 15).toInt ∧
      (pcShiftAt (channelState 0x7FFFFFFF 31 (-129) 0) 15).toInt ≤ 31 ∧
      (channelState 0x7FFFFFFF 31 (-129) 0).regs.qzp.toInt < outMin .s8) ∧
    (0 ≤ (pcMultAt (channelState 0x7FFFFFFF 31 (-128) 0) 15).toInt ∧
      -31 ≤ (pcShiftAt (channelState 0x7FFFFFFF 31 (-128) 0) 15).toInt ∧
      (pcShiftAt (channelState 0x7FFFFFFF 31 (-128) 0) 15).toInt ≤ 31 ∧
      outMin .s8 ≤ (channelState 0x7FFFFFFF 31 (-128) 0).regs.qzp.toInt ∧
      (channelState 0x7FFFFFFF 31 (-128) 0).regs.qzp.toInt ≤ outMax .s8) := by decide

theorem witness_RqpcIgnores : ∃ t, exec (.rqpc 15 .acc32) (channelState 0x40000000 31 0 4) = .next t := ⟨_, rfl⟩

/-! RQM: one state for each check that fails, then two where all pass. -/

theorem rqmReady_tensor : rqmReady false .acc32 .s8 rqmState := by
  unfold rqmReady rqmPointers rqmAligned rqmChannels rqmMults rqmShifts zeroPoint
  decide

theorem rqmReady_channel : rqmReady true .acc32 .s8 rqmState := by
  refine ⟨by decide, by unfold rqmPointers; decide, by unfold rqmAligned; decide, fun _ => by decide, ?_, ?_, by unfold zeroPoint; decide⟩
  · show ∀ i, i < 3 → 0 ≤ elementMult true rqmState i
    decide
  · show ∀ i, i < 3 → -31 ≤ elementShift true rqmState i ∧ elementShift true rqmState i ≤ 31
    decide

theorem rqmOrdinary_example : rqmOrdinary .acc32 .s8 rqmState := by
  show ∀ i, i < 3 → _
  decide

theorem witness_RqmRescales_format : outFmtOf (rqmWith fun g => { g with qfmt := 5 }).regs.qfmt = none := by decide
theorem witness_RqmRescales_null :
    outFmtOf (rqmWith fun g => { g with rqSrc := 0 }).regs.qfmt = some .s8 ∧
    ¬rqmPointers (rqmWith fun g => { g with rqSrc := 0 }).regs ∧
    ¬rqmPointers (rqmWith fun g => { g with rqDst := 0 }).regs := by unfold rqmPointers; decide
/-- M5. -/
theorem witness_RqmRescales_align :
    rqmPointers (rqmWith fun g => { g with rqSrc := 0x1002 }).regs ∧
    ¬rqmAligned .acc32 .s8 (rqmWith fun g => { g with rqSrc := 0x1002 }).regs := by
  unfold rqmPointers rqmAligned; decide
/-- M12, and a negative multiplier. -/
theorem witness_RqmRescales_param :
    rqmAligned .acc32 .s8 (rqmWith fun g => { g with rqCh0 := 2 }).regs ∧
    ¬rqmChannels true (rqmWith fun g => { g with rqCh0 := 2 }) ∧
    ¬rqmMults false (rqmWith fun g => { g with qmult := 0x80000000 }) := by
  unfold rqmAligned rqmChannels rqmMults; decide
/-- M14: a shift of 32. -/
theorem witness_RqmRescales_shift :
    rqmAligned .acc32 .s8 (rqmWith fun g => { g with qshift := 32 }).regs ∧
    rqmChannels false (rqmWith fun g => { g with qshift := 32 }) ∧
    rqmMults false (rqmWith fun g => { g with qshift := 32 }) ∧
    ¬rqmShifts false (rqmWith fun g => { g with qshift := 32 }) := by
  unfold rqmAligned rqmChannels rqmMults rqmShifts; decide
theorem witness_RqmRescales_zp :
    rqmAligned .acc32 .s8 (rqmWith fun g => { g with qzp := 128 }).regs ∧
    rqmChannels false (rqmWith fun g => { g with qzp := 128 }) ∧
    rqmMults false (rqmWith fun g => { g with qzp := 128 }) ∧
    rqmShifts false (rqmWith fun g => { g with qzp := 128 }) ∧
    ¬zeroPoint .s8 (rqmWith fun g => { g with qzp := 128 }) := by
  unfold rqmAligned rqmChannels rqmMults rqmShifts zeroPoint; decide
theorem witness_RqmRescales_ready :
    rqmReady false .acc32 .s8 rqmState ∧ rqmReady true .acc32 .s8 rqmState ∧ rqmOrdinary .acc32 .s8 rqmState :=
  ⟨rqmReady_tensor, rqmReady_channel, rqmOrdinary_example⟩

theorem witness_RqmStoresEvery :
    Memory.wf rqmState.mem = true ∧ rqmReady false .acc32 .s8 rqmState ∧ rqmOrdinary .acc32 .s8 rqmState ∧
    (∀ i j, i < rqmState.regs.rqCnt.toNat → j < rqmState.regs.rqCnt.toNat →
      apart (rqmDstAddr rqmState.regs i) (outBytes .s8) (rqmSrcAddr rqmState.regs j) (accBytes .acc32)) ∧
    (∀ i j, i < rqmState.regs.rqCnt.toNat → j < rqmState.regs.rqCnt.toNat → i ≠ j →
      rqmDstAddr rqmState.regs i ≠ rqmDstAddr rqmState.regs j) := by
  have h1 : ∀ i, i < 3 → ∀ j, j < 3 →
      apart (rqmDstAddr rqmState.regs i) (outBytes .s8) (rqmSrcAddr rqmState.regs j) (accBytes .acc32) := by
    unfold apart; decide
  have h2 : ∀ i, i < 3 → ∀ j, j < 3 → i ≠ j → rqmDstAddr rqmState.regs i ≠ rqmDstAddr rqmState.regs j := by decide
  exact ⟨by decide, rqmReady_tensor, rqmOrdinary_example, fun i j hi hj => h1 i hi j hj, fun i j hi hj => h2 i hi j hj⟩

theorem witness_RqmChangesOnly :
    (∃ t, exec (.rqm false .acc32) rqmState = .next t) ∧
    outFmtOf (rqmWith fun g => { g with qfmt := 7 }).regs.qfmt = none ∧
    outFmtOf rqmState.regs.qfmt = some .s8 ∧
    (∀ i, i < rqmState.regs.rqCnt.toNat → apart 0x1FFF 1 (rqmDstAddr rqmState.regs i) (outBytes .s8)) ∧
    (∀ i, i < rqmState.regs.rqCnt.toNat → apart 0x2003 1 (rqmDstAddr rqmState.regs i) (outBytes .s8)) := by
  refine ⟨⟨_, rfl⟩, by decide, by decide, ?_, ?_⟩
  · show ∀ i, i < 3 → _
    unfold apart; decide
  · show ∀ i, i < 3 → _
    unfold apart; decide

/-- M1's accumulators narrowed in place. -/
def inPlace : State := rqmWith fun g => { g with rqDst := 0x1000, rqDstr := 4 }

theorem witness_RqmInPlace :
    Memory.wf inPlace.mem = true ∧ rqmReady false .acc32 .s8 inPlace ∧ rqmOrdinary .acc32 .s8 inPlace ∧
    inPlace.regs.rqDst = inPlace.regs.rqSrc ∧ inPlace.regs.rqDstr = inPlace.regs.rqSstr ∧
    (∀ i j, i < inPlace.regs.rqCnt.toNat → j < inPlace.regs.rqCnt.toNat → i ≠ j →
      rqmSrcAddr inPlace.regs i ≠ rqmSrcAddr inPlace.regs j) := by
  have h : ∀ i, i < 3 → ∀ j, j < 3 → i ≠ j → rqmSrcAddr inPlace.regs i ≠ rqmSrcAddr inPlace.regs j := by decide
  refine ⟨by decide, ?_, ?_, by decide, by decide, fun i j hi hj => h i hi j hj⟩
  · unfold rqmReady rqmPointers rqmAligned rqmChannels rqmMults rqmShifts zeroPoint
    decide
  · show ∀ i, i < 3 → _
    decide

/-- All checks of M1 pass whatever the platform's regions are. -/
theorem rqmReady_rqmOn (b n : Nat) (k : RegionKind) : rqmReady false .acc32 .s8 (rqmOn b n k) := by
  have h : rqmReady false .acc32 .s8 rqmState := by
    unfold rqmReady rqmPointers rqmAligned rqmChannels rqmMults rqmShifts zeroPoint
    decide
  obtain ⟨h1, h2, h3, -, h5⟩ := h
  exact ⟨h1, h2, h3, fun hp => absurd hp Bool.false_ne_true, h5⟩

/-- M1 stopped at the read of accumulator 0, by its lowest byte. -/
theorem witness_RqmStops : ∀ k : RegionKind,
    let s := rqmOn 0x1000 0x100 k
    rqmReady false .acc32 .s8 s ∧ 0 < s.regs.rqCnt.toNat ∧
    ∃ st, busStop s.cfg (rqmSrcAddr s.regs 0) (accBytes .acc32) = some st :=
  fun k => ⟨rqmReady_rqmOn _ _ _, by cases k <;> decide, match k with
    | .busError => ⟨.fault (.busError 0x1000), by decide⟩
    | .device => ⟨.refused (.notOrdinaryMemory 0x1000), by decide⟩⟩

/-- M1 stopped at the read of its last accumulator, by the highest byte of it. -/
theorem witness_RqmStops_laterRead :
    let s := rqmOn 0x100B 1 .busError
    rqmReady false .acc32 .s8 s ∧ 2 < s.regs.rqCnt.toNat ∧
    (∀ k, k < 2 → busStop s.cfg (rqmSrcAddr s.regs k) (accBytes .acc32) = none ∧
      busStop s.cfg (rqmDstAddr s.regs k) (outBytes .s8) = none) ∧
    busStop s.cfg (rqmSrcAddr s.regs 2) (accBytes .acc32) = some (.fault (.busError 0x100B)) :=
  ⟨rqmReady_rqmOn _ _ _, by decide⟩

/-- M1 stopped at the write of its second output. -/
theorem witness_RqmStops_write :
    let s := rqmOn 0x2001 1 .device
    rqmReady false .acc32 .s8 s ∧ 1 < s.regs.rqCnt.toNat ∧
    (∀ k, k < 1 → busStop s.cfg (rqmSrcAddr s.regs k) (accBytes .acc32) = none ∧
      busStop s.cfg (rqmDstAddr s.regs k) (outBytes .s8) = none) ∧
    busStop s.cfg (rqmSrcAddr s.regs 1) (accBytes .acc32) = none ∧
    busStop s.cfg (rqmDstAddr s.regs 1) (outBytes .s8) = some (.refused (.notOrdinaryMemory 0x2001)) :=
  ⟨rqmReady_rqmOn _ _ _, by decide⟩

/-! The window: line 2 position 4 is the last real element, line 3 and position 5 are padding. -/

theorem witness_WindowCell :
    winReal windowA 2 4 = true ∧ busStop State.reset.cfg (winAddr windowA 2 4) (elemBytes .s8) = none ∧
    winReal windowA 3 4 = false ∧ winReal windowA 2 5 = false ∧ winReal windowA (-1) 1 = false ∧
    winReal windowA 0 0 = false := by decide

/-- W23, W26, W28, W30, W34, and setup A itself; W35 fills the ring store to the last byte. -/
theorem witness_WinitOpens :
    (setupWith fun g => { g with wSrc := 0 }).regs.wSrc = 0 ∧
    ((setupWith fun g => { g with wFmt := 4 }).regs.wSrc ≠ 0 ∧
      ¬(setupWith fun g => { g with wFmt := 4 }).regs.wPitchX.toNat % elemBytes (elemOf 4) = 0) ∧
    ¬0 ≤ (setupWith fun g => { g with wPadL := -1 }).regs.wPadL.toInt ∧
    ¬(setupWith fun g => { g with wSrcW := 65536 }).regs.wSrcW.toInt ≤ 65535 ∧
    ¬(setupWith fun g => { g with wPadv := 128 }).regs.wPadv.toInt ≤ elemHi (elemOf 0) ∧
    ¬(setupWith fun g => { g with wCap := 4097, wLen := 1 }).regs.wCap.toInt ≤ 4096 ∧
    (let g := (setupWith fun g => { g with wCap := 64, wLen := 64 }).regs
     let e := elemOf g.wFmt
     g.wSrc ≠ 0 ∧ (g.wSrc.toNat % elemBytes e = 0 ∧ g.wPitchY.toNat % elemBytes e = 0 ∧ g.wPitchX.toNat % elemBytes e = 0) ∧
      (1 ≤ g.wSrcH.toInt ∧ g.wSrcH.toInt ≤ 65535 ∧ 1 ≤ g.wSrcW.toInt ∧ g.wSrcW.toInt ≤ 65535 ∧ 0 ≤ g.wPadL.toInt ∧
        g.wPadL.toInt ≤ 65535 ∧ 0 ≤ g.wPadP.toInt ∧ g.wPadP.toInt ≤ 65535) ∧
      (elemLo e ≤ g.wPadv.toInt ∧ g.wPadv.toInt ≤ elemHi e) ∧
      (1 ≤ g.wCap.toInt ∧ 1 ≤ g.wLen.toInt ∧ g.wCap.toInt ≤ 4096 ∧ g.wLen.toInt ≤ 4096 ∧
        g.wCap.toInt * g.wLen.toInt * elemBytes e ≤ State.reset.cfg.wbufBytes.toNat)) := by decide

theorem witness_WadvLoads :
    setupA.win.isOpen = false ∧
    (loadedA.win.isOpen = true ∧ loadedA.win.cap < 4) ∧
    (2 ^ 31 - 1 : Int) < ({ loadedA.win with top := 2 ^ 31 - 4 } : Window).top + loadedA.win.valid + 1 ∧
    (loadedA.win.isOpen = true ∧ 2 ≤ loadedA.win.cap ∧ loadedA.win.top + loadedA.win.valid + 2 ≤ 2 ^ 31 - 1 ∧
      loadedA.win.head < loadedA.win.cap ∧ loadedA.win.valid ≤ loadedA.win.cap ∧
      (∀ j p : Nat, j < 2 → p < loadedA.win.len →
        winReal loadedA.win (loadedA.win.top + loadedA.win.valid + j) p = true →
        busStop loadedA.cfg (winAddr loadedA.win (loadedA.win.top + loadedA.win.valid + j) p)
          (elemBytes loadedA.win.elem) = none)) := by
  have h : ∀ j, j < 2 → ∀ p, p < 6 →
      winReal loadedA.win (loadedA.win.top + loadedA.win.valid + (j : Nat)) (p : Nat) = true →
      busStop loadedA.cfg (winAddr loadedA.win (loadedA.win.top + loadedA.win.valid + (j : Nat)) (p : Nat))
        (elemBytes loadedA.win.elem) = none := by decide
  exact ⟨by decide, by decide, by decide, by decide, by decide, by decide, by decide, by decide, fun j p hj hp => h j hj p hp⟩

/-- With n = 2 and three lines resident of three, two are evicted: row 0 is an old line, rows 1 and 2 are new. -/
theorem witness_WadvLoads_rows :
    (0 < loadedA.win.valid + 2 - (loadedA.win.valid + 2 - loadedA.win.cap) ∧
      0 + (loadedA.win.valid + 2 - loadedA.win.cap) < loadedA.win.valid) ∧
    (2 < loadedA.win.valid + 2 - (loadedA.win.valid + 2 - loadedA.win.cap) ∧
      loadedA.win.valid ≤ 1 + (loadedA.win.valid + 2 - loadedA.win.cap)) ∧ 5 < loadedA.win.len := by decide

theorem witness_WrdReads :
    setupA.win.isOpen = false ∧ (slidA.win.isOpen = true ∧ slidA.win.valid ≤ 3) ∧ slidA.win.len ≤ 6 ∧
    (2 < slidA.win.valid ∧ 5 < slidA.win.len) := by decide

theorem windowHolds_loadedA : WindowHolds loadedA := by
  have h : ∀ r, r < 3 → ∀ p, p < 6 →
      loadCell loadedA.cfg loadedA.mem loadedA.win (loadedA.win.top + (r : Nat)) (p : Nat) =
        .ok (ringCell loadedA ((loadedA.win.head + r) % loadedA.win.cap) p) := by decide
  exact fun r p hr hp => h r hr p hp

theorem witness_OpenWindowShows :
    loadedA.win.isOpen = true ∧ OpenBounds loadedA.cfg loadedA.win ∧ WindowHolds loadedA ∧ 2 < loadedA.win.valid ∧
    5 < loadedA.win.len := ⟨by decide, openBounds_loadedA, windowHolds_loadedA, by decide, by decide⟩

/-- `loadedA` with a host about to load two more lines. -/
def loadedA_wadv : State := loadedA.withFetchWord 32 0x11000002

/-- The invariant holds with a window open, lines resident and a table entry written. -/
theorem inv_loadedA : Inv { loadedA_wadv with pcMult := [(15, 1)] } where
  params_wf := by decide
  idle := rfl
  err_iff := by decide
  errcode_legal := .inl rfl
  mem_wf := by decide
  pcMult_wf := by decide
  pcShift_wf := by decide
  open_bounds := fun _ => openBounds_loadedA
  open_loaded := fun _ r hr => by
    have h : ∀ r, r < 3 → ((tabGet loadedA.ring ((loadedA.win.head + r) % loadedA.win.cap)).map List.length) = some 6 := by
      decide
    have := h r hr
    rw [Option.map_eq_some_iff] at this
    exact this
  open_ring := fun _ => by decide
  closed_empty := fun h => by cases h

theorem witness_StepKeepsTheWindowHolding :
    Inv { loadedA_wadv with pcMult := [(15, 1)] } ∧ (loadedA_wadv.win.isOpen = true → WindowHolds loadedA_wadv) ∧
    ∃ t, step { loadedA_wadv with pcMult := [(15, 1)] } = .next t ∧ t.mem = loadedA_wadv.mem ∧ t.win.isOpen = true :=
  ⟨inv_loadedA, fun _ => windowHolds_loadedA, _, rfl, rfl, rfl⟩

/-- Z10, Z8, Z9, Z15 and Z3: `outn` is 4 where the reach is 3, the stride 2 and the padded extent 9; Z20 does not fit. -/
theorem witness_Sizeq :
    (geometry 0 1 1 1 5 5).regs.szK.toInt < 1 ∧
    ((geometry 3 4 1 1 5 5).regs.szK.toInt < (geometry 3 4 1 1 5 5).regs.szS.toInt ∧
      (geometry 3 0 1 1 5 5).regs.szS.toInt < 1) ∧
    (((-1 : Int) - 1) * 1 ≤ 5 - 7 ∧ (5 : Int) - 7 < -1 * 1 ∧ (-1 : Int) ≤ 0) ∧
    (((4 : Int) - 1) * 2 ≤ 9 - 3 ∧ (9 : Int) - 3 < 4 * 2 ∧ (1 : Int) ≤ 4 ∧
      (1 ≤ (geometry 3 2 1 2 9 11).regs.wLen.toInt ∧ (geometry 3 2 1 2 9 11).regs.wLen.toInt ≤ 4096 ∧
        ((2 : Int) - 1) * 2 + 3 ≤ 4096 ∧
        (((2 : Int) - 1) * 2 + 3) * (geometry 3 2 1 2 9 11).regs.wLen.toInt * elemBytes (elemOf 0)
          ≤ State.reset.cfg.wbufBytes.toNat)) ∧
    (((4998 : Int) - 1) * 1 ≤ 5000 - 3 ∧ (5000 : Int) - 3 < 4998 * 1 ∧
      ¬((min 100 4998 - 1) * 1 + 3) * 2000 * 1 ≤ ((State.reset.cfg.wbufBytes.toNat : Nat) : Int)) := by decide

theorem witness_SizeqCapacity :
    ∃ t, exec .sizeq (geometry 3 2 1 2 9 11) = .next t ∧ t.err = false ∧
      ∃ v, exec .winit { t with regs := { t.regs with wCap := t.resultHi } } = .next v := ⟨_, rfl, rfl, _, rfl⟩

/-- The same geometry yields 4 output lines. -/
theorem witness_SizeqCapacity_tile :
    let g := (geometry 3 2 1 2 9 11).regs
    ((4 : Int) - 1) * g.szS.toInt ≤ g.szPadded.toInt - ((g.szK.toInt - 1) * g.szD.toInt + 1) ∧
    g.szPadded.toInt - ((g.szK.toInt - 1) * g.szD.toInt + 1) < 4 * g.szS.toInt := by decide

theorem witness_FailingCommand : ∃ t, exec (.wrd 0 0) setupA = .next t ∧ t.err = true := ⟨_, rfl, rfl⟩
theorem witness_CommandsLeave : ∃ t, exec (.wadv 2) loadedA = .next t := ⟨_, rfl⟩
theorem witness_OnlyScalarCommands :
    ∃ t, exec (.wrd 1 4) slidA = .next t ∧ (t.resultLo ≠ slidA.resultLo ∨ t.resultHi ≠ slidA.resultHi) :=
  ⟨_, rfl, .inl (by decide)⟩
theorem witness_OnlyRqmWrites : (∃ t, exec (.wadv 2) loadedA = .next t) ∧ ∀ p a, Instr.wadv 2 ≠ .rqm p a :=
  ⟨⟨_, rfl⟩, fun _ _ h => by cases h⟩
theorem witness_OnlyWindowCommands :
    (∃ t, exec (.wadv 2) loadedA = .next t ∧ t.win ≠ loadedA.win ∧ t.ring ≠ loadedA.ring ∧
      ringCell t 0 1 ≠ ringCell loadedA 0 1) ∧
    ∃ t, exec .winit loadedA = .next t ∧ t.ringGen ≠ loadedA.ringGen :=
  ⟨⟨_, rfl, by decide, by decide, by decide⟩, _, rfl, by decide⟩
theorem witness_OnlyMemoryAccesses :
    exec (.rqm false .acc32) (rqmPlatform .busError) = .fault (.busError 0x1000) ∧
    exec (.rqm false .acc32) (rqmPlatform .device) = .refused (.notOrdinaryMemory 0x1000) := ⟨rfl, rfl⟩
theorem witness_BuildParameters : ∃ t, step loadedA_wadv = .next t := ⟨_, rfl⟩
theorem witness_StepKeepsTheInvariant :
    Inv { loadedA_wadv with pcMult := [(15, 1)] } ∧ ∃ t, step { loadedA_wadv with pcMult := [(15, 1)] } = .next t :=
  ⟨inv_loadedA, _, rfl⟩


/-- Setup A's window after W3 on a platform where `n` bytes from `b` on do not answer as memory. -/
def windowPlatform (b n : Nat) (k : RegionKind) : State := { loadedA with cfg := platform b n k }

/-- WADV 2 after W3 loads line 2 (elements 0x3008 to 0x300B at positions 1 to 4), then line 3, all padding. Position 0 is padding and makes no access. -/
theorem witness_WadvStops :
    let s := windowPlatform 0x300B 1 .busError
    (s.win.isOpen = true ∧ 2 ≤ s.win.cap ∧ s.win.top + s.win.valid + 2 ≤ 2 ^ 31 - 1 ∧ 4 < s.win.len) ∧
    (∀ q, q < 4 → wadvStop s 0 q = none) ∧ wadvStop s 0 4 = some (.fault (.busError 0x300B)) ∧
    (∀ q, q < s.win.len → wadvStop s 1 q = none) := by decide

/-- WADV 3 into the empty window: line -1 is padding, and line 0 meets the device at its first real element. -/
theorem witness_WadvStops_laterLine :
    let s : State := { windowPlatform 0x3000 1 .device with win := windowA }
    (s.win.isOpen = true ∧ 3 ≤ s.win.cap ∧ s.win.top + s.win.valid + 3 ≤ 2 ^ 31 - 1 ∧ 1 < s.win.len) ∧
    (∀ k, k < 1 → ∀ q, q < s.win.len → wadvStop s k q = none) ∧ (∀ q, q < 1 → wadvStop s 1 q = none) ∧
    wadvStop s 1 1 = some (.refused (.notOrdinaryMemory 0x3000)) := by decide

/-- The bytes on both sides of the block's own window, which the reset state puts at the top of the address space. -/
theorem witness_MemoryWriteEvent :
    (busStop1 State.reset.cfg (0xFFFFFEFF : Word).toNat = none ∧ busStop1 State.reset.cfg (0 : Word).toNat = none ∧
      Memory.wf State.reset.mem = true) ∧
    busStop1 State.reset.cfg (0xFFFFFF00 : Word).toNat ≠ none ∧
    busStop1 State.reset.cfg (0xFFFFFFFF : Word).toNat ≠ none := by decide

end Sys2Proof.Tests
end

section
/-! PROOFS. The rounding primitive RNDA (spec/00_scope.md R12): its equation on each side of zero, and the laws that follow. The negative side always goes through `rnda_neg`. -/

namespace Sys2Proof.Machine

@[simp] theorem rnda_zero_bits (x : Int) : rnda x 0 = x := by rw [rnda, if_pos rfl]

/-- RNDA without the absolute value and the case on the sign. -/
theorem rnda_of_nonneg {x : Int} {n : Nat} (hn : 0 < n) (hx : 0 ≤ x) : rnda x n = (x + 2 ^ (n - 1)) / 2 ^ n := by
  lift x to Nat using hx
  rw [rnda, if_neg (by omega)]
  simp

theorem rnda_nonneg {x : Int} (n : Nat) (hx : 0 ≤ x) : 0 ≤ rnda x n := by
  rcases n.eq_zero_or_pos with rfl | hn
  · simpa using hx
  · rw [rnda_of_nonneg hn hx]; positivity

/-- RNDA is odd: both signs round the same magnitude, and 0 rounds to 0. -/
theorem rnda_neg (x : Int) (n : Nat) : rnda (-x) n = -rnda x n := by
  rcases n.eq_zero_or_pos with rfl | hn
  · simp
  · simp only [rnda, if_neg hn.ne', Int.natAbs_neg]
    rcases lt_trichotomy x 0 with hx | rfl | hx
    · rw [if_neg (by omega), if_pos hx, neg_neg]
    · have : 2 ^ (n - 1) < 2 ^ n := Nat.pow_lt_pow_right (by decide) (by omega)
      simp [Nat.div_eq_of_lt this]
    · rw [if_pos (by omega), if_neg (by omega)]

/-- The quotient of R12 is the nearest one, with ties up, for `x ≥ 0`. -/
theorem rnda_nearest {x : Int} {n : Nat} (hn : 0 < n) (hx : 0 ≤ x) :
    rnda x n * 2 ^ n ≤ x + 2 ^ (n - 1) ∧ x + 2 ^ (n - 1) < (rnda x n + 1) * 2 ^ n := by
  rw [rnda_of_nonneg hn hx]
  exact ⟨Int.ediv_mul_le _ (by positivity), Int.lt_ediv_add_one_mul_self _ (by positivity)⟩

theorem rnda_mono_of_nonneg {x y : Int} (n : Nat) (hx : 0 ≤ x) (h : x ≤ y) : rnda x n ≤ rnda y n := by
  rcases n.eq_zero_or_pos with rfl | hn
  · simpa using h
  · rw [rnda_of_nonneg hn hx, rnda_of_nonneg hn (hx.trans h)]
    exact Int.ediv_le_ediv (by positivity) (by omega)

/-- RNDA is monotone: by oddness, only magnitudes on one side of zero are ever compared. -/
theorem rnda_mono {x y : Int} (n : Nat) (h : x ≤ y) : rnda x n ≤ rnda y n := by
  rcases le_total 0 x with hx | hx
  · exact rnda_mono_of_nonneg n hx h
  · have flip : rnda x n = -rnda (-x) n := by rw [rnda_neg, neg_neg]
    rcases le_total 0 y with hy | hy
    · have hnx := rnda_nonneg n (x := -x) (by omega)
      have hny := rnda_nonneg n hy
      omega
    · have := rnda_mono_of_nonneg n (x := -y) (y := -x) (by omega) (by omega)
      rw [rnda_neg y] at this
      omega

/-- Rounding away exactly the bits that were shifted in loses nothing. -/
theorem rnda_mul_pow_self {x : Int} (k : Nat) (hx : 0 ≤ x) : rnda (x * 2 ^ k) k = x := by
  rcases k.eq_zero_or_pos with rfl | hk
  · simp
  · have half : (2 : Int) ^ (k - 1) < 2 ^ k := pow_lt_pow_right₀ (by decide) (by omega)
    rw [rnda_of_nonneg hk (by positivity), add_comm, Int.add_mul_ediv_right _ _ (by positivity),
      Int.ediv_eq_zero_of_lt (by positivity) half, zero_add]

/-- `k` bits shifted in cancel `k` bits of the rounding, for `x ≥ 0`. -/
theorem rnda_mul_pow_add {x : Int} (j k : Nat) (hx : 0 ≤ x) : rnda (x * 2 ^ k) (j + k) = rnda x j := by
  rcases j.eq_zero_or_pos with rfl | hj
  · rw [zero_add, rnda_mul_pow_self k hx, rnda_zero_bits]
  · rw [rnda_of_nonneg (by omega) (by positivity), rnda_of_nonneg hj hx, show j + k - 1 = j - 1 + k by omega,
      pow_add, pow_add, ← add_mul, Int.mul_ediv_mul_of_pos_left _ _ (by positivity)]

theorem rnda_mul_pow (x : Int) {n k : Nat} (h : k ≤ n) : rnda (x * 2 ^ k) n = rnda x (n - k) := by
  obtain ⟨j, rfl⟩ := Nat.exists_eq_add_of_le' h
  rw [Nat.add_sub_cancel]
  rcases le_total 0 x with hx | hx
  · exact rnda_mul_pow_add j k hx
  · have := rnda_mul_pow_add j k (x := -x) (by omega)
    rwa [neg_mul, rnda_neg, rnda_neg, neg_inj] at this

/-- Settles O23, from RNDA's equation on nonnegative integers and its oddness. -/
theorem roundingIsNearestOddAndMonotone : Obligations.RoundingIsNearestOddAndMonotone :=
  ⟨rnda_zero_bits, fun _ _ hn hx => rnda_nearest hn hx, rnda_neg, fun _ _ n h => rnda_mono n h,
    fun x _ _ h => rnda_mul_pow x h, fun _ _ _ => rfl⟩

end Sys2Proof.Machine
end

section
/-! PROOFS. The build parameters (spec/00_scope.md R8): each layer of a step, from the command's meaning up, leaves `cfg` as it is. -/

namespace Sys2Proof.Machine

/-- No command changes a build parameter. -/
theorem exec_cfg {i : Instr} {s t : State} (h : exec i s = .next t) : t.cfg = s.cfg := by
  rcases exec_next h with ⟨_, -, rfl⟩ | ⟨_, _, rfl, -⟩ | ⟨_, rfl, -⟩ | ⟨rfl, -⟩ | ⟨_, rfl, -⟩ | ⟨rfl, -⟩ | ⟨rfl, -⟩ <;>
    rfl

theorem commandStep_cfg {x : Word} {s t : State} (h : commandStep x s = .next t) : t.cfg = s.cfg := by
  rcases commandStep_next h with ⟨_, -, rfl⟩ | ⟨i, u, -, hu, rfl⟩
  · rfl
  · have hcfg := exec_cfg hu
    exact hcfg

@[simp] theorem writeReg_cfg (r : Reg) (v : Word) (s : State) : (writeReg r v s).cfg = s.cfg := by rw [writeReg_eq]

/-- No event from outside changes a build parameter, reset included (R49). -/
theorem hostOp_cfg {op : HostOp} {s t : State} (h : hostOp op s = .next t) : t.cfg = s.cfg := by
  rcases hostOp_next h with ⟨_, -, rfl⟩ | ⟨_, v, r, -, -, -, rfl⟩ | ⟨_, _, -, -, rfl⟩ | ⟨_, _, -, -, hc⟩ | ⟨_, _, -, rfl⟩ |
    ⟨-, rfl⟩
  · rfl
  · exact writeReg_cfg r v s
  · rfl
  · exact commandStep_cfg hc
  · rfl
  · rfl

theorem step_cfg {s t : State} (h : step s = .next t) : t.cfg = s.cfg := by
  rcases step_next h with ⟨-, rfl⟩ | ⟨op, rest, -, hop⟩
  · rfl
  · have hcfg := hostOp_cfg hop
    exact hcfg

/-- Settles O56, by the inversion of a step down to the command it runs. -/
theorem buildParametersNeverChange : Obligations.BuildParametersNeverChange := fun _ _ h => step_cfg h

end Sys2Proof.Machine
end

section
/-! PROOFS. The format tables (spec/00_scope.md R17, R18). -/

namespace Sys2Proof.Machine

/-- Settles O19: the eight codes by evaluation, the ranges and widths format by format. -/
theorem outputFormatTable : Obligations.OutputFormatTable :=
  ⟨by decide, fun fmt => by cases fmt <;> rfl⟩

/-- Settles O20: the table format by format, the extensions from the low byte of the pattern, the eight values of W_FMT by evaluation. -/
theorem elementFormatTable : Obligations.ElementFormatTable := by
  refine ⟨fun e => by cases e <;> rfl, fun b => ?_, by decide⟩
  have low : b.setWidth 8 = b.extractLsb' 0 8 := BitVec.setWidth_eq_extractLsb' (by decide)
  simp only [elemExt, low, and_self]

end Sys2Proof.Machine
end

section
/-! PROOFS. The window between steps (spec/41_window.md R160 to R164; spec/10_state.md R46, R47): what WINIT's checks give, and that loaded lines keep the bounds, fill every resident slot and hold what their cells are in memory. -/

namespace Sys2Proof

open Sys2Proof.Machine

/-- One check of a chain passes when its condition is false and the rest of the chain passes. -/
theorem check_eq_none {p : Prop} [Decidable p] {e : ErrCode} {rest : Option ErrCode} :
    (if p then some e else rest) = none ↔ ¬p ∧ rest = none := by split <;> simp [*]

/-- WINIT's checks are the bounds of the window it latches (R160). -/
theorem winitWindow_bounds {c : Params} {g : Regs} (h : winitCheck c g = none) : OpenBounds c (winitWindow g) := by
  simp only [winitCheck, check_eq_none, not_or, not_lt, not_le, not_not, Config.maxDim, Config.maxLines, Config.maxLen]
    at h
  obtain ⟨hsrc, ⟨asrc, ay, ax⟩, ⟨hh, hh', hw, hw', hl, hl', hp, hp'⟩, ⟨hv, hv'⟩, ⟨hcap, hlen, hcap', hlen', hfit⟩, -⟩ := h
  have fits : ((s32 g.wCap).toNat * (s32 g.wLen).toNat * elemBytes (elemOf g.wFmt) : Int) ≤ u32 c.wbufBytes := by
    rwa [Int.toNat_of_nonneg hcap.le, Int.toNat_of_nonneg hlen.le]
  exact {
    src_nonnull := hsrc, src_aligned := asrc, py_aligned := ay, px_aligned := ax
    h_range := by simp only [winitWindow]; omega
    w_range := by simp only [winitWindow]; omega
    padl_range := by simp only [winitWindow]; omega
    padp_range := by simp only [winitWindow]; omega
    len_range := by simp only [winitWindow]; omega
    cap_range := by simp only [winitWindow]; omega
    fits := by exact_mod_cast fits
    padv_range := ⟨hv, hv'⟩
    head_lt := by simp only [winitWindow]; omega
    valid_le := Nat.zero_le _
    top_ge := by simp only [winitWindow]; omega
    top_le := by simp only [winitWindow]; omega }

/-- A WADV that is not checked away has an open window, with line indices to spare (R162). -/
theorem wadvCheck_eq_none {n : Nat} {w : Window} (h : wadvCheck n w = none) :
    w.isOpen = true ∧ w.top + w.valid + n ≤ 2 ^ 31 - 1 := by
  simp only [wadvCheck, check_eq_none, Bool.not_eq_false, not_lt, and_true] at h
  exact ⟨h.1, h.2.2⟩

/-- Advancing the cursor keeps the bounds, as long as the line indices stay in range. -/
theorem OpenBounds.winAfter {c : Params} {w : Window} {n : Nat} (h : OpenBounds c w)
    (hn : w.top + w.valid + n ≤ 2 ^ 31 - 1) : OpenBounds c (winAfter w n) :=
  have htop := h.top_ge
  { h with
    head_lt := Nat.mod_lt _ h.cap_range.1
    valid_le := by simp only [Machine.winAfter, evicted]; omega
    top_ge := by simp only [Machine.winAfter]; omega
    top_le := by simp only [Machine.winAfter, evicted]; omega }

/-- Row `r` of the advanced window is line `evicted + r`, counted from the oldest line before the command. -/
theorem winAfter_slot (w : Window) (n r : Nat) :
    ((winAfter w n).head + r) % (winAfter w n).cap = (w.head + (evicted w n + r)) % w.cap := by
  simp only [winAfter, Nat.mod_add_mod, Nat.add_assoc]

theorem winAfter_line (w : Window) (n r : Nat) : (winAfter w n).top + r = w.top + ((evicted w n + r : Nat) : Int) := by
  simp only [winAfter]
  omega

theorem lt_of_lt_winAfter_valid {w : Window} {n r : Nat} (h : r < (winAfter w n).valid) :
    evicted w n + r < w.valid + n := by
  simp only [winAfter] at h
  omega

/-- What a cell reads as depends on the entry of its slot and the ring's generation only. -/
theorem ringCell_congr {s t : State} {slot : Nat} (hr : tabGet t.ring slot = tabGet s.ring slot)
    (hg : t.ringGen = s.ringGen) (p : Nat) : ringCell t slot p = ringCell s slot p := by
  simp only [ringCell, hr, hg]

/-- A cell of a loaded line reads as what was loaded. -/
theorem ringCell_of_line {s : State} {slot p : Nat} {cells : List (BitVec 16)} {b : BitVec 16}
    (hl : tabGet s.ring slot = some cells) (hb : cells[p]? = some b) : ringCell s slot p = b := by
  simp only [ringCell, hl, hb, Option.getD_some]

namespace Machine.LinesLoaded

variable {s u : State} {n : Nat}

/-- Every slot resident after an advance holds a whole line: an old one or a new one. -/
theorem residentLoaded (hu : LinesLoaded s u n) (h : ResidentLoaded s) : ResidentLoaded u := by
  intro r hr
  rw [hu.frame] at hr ⊢
  rw [winAfter_slot]
  have hlt := lt_of_lt_winAfter_valid hr
  by_cases hq : s.win.valid ≤ evicted s.win n + r
  · obtain ⟨line, hline, hlen, -⟩ := hu.new _ (by omega) hlt hq
    exact ⟨line, hline, hlen⟩
  · have hold := hu.old _ (by omega) hlt (by omega)
    simp only [hold]
    exact h _ (by omega)

/-- Every line resident after an advance holds its cells: the new ones were just loaded (R162), the old ones stay in their slots (R164). -/
theorem windowHolds (hu : LinesLoaded s u n) (h : WindowHolds s) : WindowHolds u := by
  intro r p hr hp
  have hgen : u.ringGen = s.ringGen := by rw [hu.frame]
  rw [show u.win = winAfter s.win n by rw [hu.frame]] at hr hp ⊢
  rw [show u.cfg = s.cfg by rw [hu.frame], show u.mem = s.mem by rw [hu.frame], winAfter_slot, winAfter_line]
  have hlt := lt_of_lt_winAfter_valid hr
  by_cases hq : s.win.valid ≤ evicted s.win n + r
  · obtain ⟨line, hline, -, hcells⟩ := hu.new _ (by omega) hlt hq
    obtain ⟨b, hb, hload⟩ := hcells p hp
    rw [ringCell_of_line hline hb]
    exact hload
  · rw [ringCell_congr (hu.old _ (by omega) hlt (by omega)) hgen]
    exact h _ p (by omega) hp

end Machine.LinesLoaded

end Sys2Proof
end

section
/-! PROOFS. The invariant of the machine (spec/10_state.md R25, R26, R40, R47; spec/42_host_interface.md R202): each kind of update keeps it, and a step is made of those. Inside a command BUSY is 1, so what a command keeps is the invariant of the state with BUSY cleared. -/

namespace Sys2Proof

open Sys2Proof.Machine

/-- No status code is 0 (R220), so ERR and ERRCODE agree after a failure (R25). -/
theorem errWord_ne_zero (c : ErrCode) : errWord c ≠ 0 := by cases c <;> decide

/-! ### One update of the state -/

namespace Inv

variable {s : State}

theorem fail (h : Inv s) (c : ErrCode) : Inv (s.fail c) :=
  { h with err_iff := iff_of_true rfl (errWord_ne_zero c), errcode_legal := .inr ⟨c, rfl⟩ }

theorem succeed (h : Inv s) : Inv s.succeed :=
  { h with err_iff := by simp, errcode_legal := .inl rfl }

theorem clearBusy (h : Inv s) : Inv { s with busy := false } := { h with idle := rfl }

theorem setPending (h : Inv s) (p : List HostOp) : Inv { s with pending := p } := { h with }

theorem setRdata (h : Inv s) (v : Word) : Inv { s with rdata := v } := { h with }

theorem setResults (h : Inv s) (lo hi : Word) : Inv { s with resultLo := lo, resultHi := hi } := { h with }

theorem setMem (h : Inv s) {m : Memory} (hm : Memory.wf m = true) : Inv { s with mem := m } :=
  { h with mem_wf := hm }

/-- New registers, and new tables whose entries lie below NCH_MAX. -/
theorem setRegs (h : Inv s) (g : Regs) {pm ps : List (Nat × Word)} (hm : tabWfFrom 0 s.cfg.nchMax pm = true)
    (hs : tabWfFrom 0 s.cfg.nchMax ps = true) : Inv { s with regs := g, pcMult := pm, pcShift := ps } :=
  { h with pcMult_wf := hm, pcShift_wf := hs }

/-- An open window within its bounds, with its lines loaded. -/
theorem setOpenWindow (h : Inv s) {w : Window} {r : List (Nat × List (BitVec 16))} {g : Nat} (ho : w.isOpen = true)
    (hb : OpenBounds s.cfg w) (hl : ResidentLoaded { s with win := w, ring := r, ringGen := g })
    (hr : tabWfFrom 0 w.cap r = true) : Inv { s with win := w, ring := r, ringGen := g } :=
  { h with
    open_bounds := fun _ => hb, open_loaded := fun _ => hl, open_ring := fun _ => hr
    closed_empty := fun hc => absurd (ho.symm.trans hc) Bool.noConfusion }

/-- A window with nothing resident, closed. -/
theorem closeWindow (h : Inv s) (w : Window) :
    Inv { s with win := { w with isOpen := false, head := 0, valid := 0, top := 0 } } :=
  { h with open_bounds := nofun, open_loaded := nofun, open_ring := nofun, closed_empty := fun _ => ⟨rfl, rfl, rfl⟩ }

end Inv

/-! ### Reset -/

/-- Everything reset sets is as the invariant wants it, whatever survives reset (R49). -/
theorem inv_of_resetValues {c : Params} {m : Memory} (hc : c.wf = true) (hm : Memory.wf m = true) (p : List HostOp)
    (v : Word) (pg rg : Nat) :
    Inv { State.reset with cfg := c, mem := m, pending := p, rdata := v, pcGen := pg, ringGen := rg } where
  params_wf := hc
  idle := rfl
  err_iff := by simp [State.reset]
  errcode_legal := .inl rfl
  mem_wf := hm
  pcMult_wf := rfl
  pcShift_wf := rfl
  open_bounds := nofun
  open_loaded := nofun
  open_ring := nofun
  closed_empty _ := ⟨rfl, rfl, rfl⟩

/-- Settles O57: State.reset is the reset of the reference build with empty memory. -/
theorem invariantHoldsAtReset : Obligations.InvariantHoldsAtReset := inv_of_resetValues rfl rfl [] 0 0 0

/-! ### One step -/

theorem memWf_of_execRqm {perch : Bool} {a : AccWidth} {s t : State} (h : execRqm perch a s = .next t)
    (hm : Memory.wf s.mem = true) : Memory.wf t.mem = true := by
  rcases execRqm_next h with ⟨_, -, rfl⟩ | ⟨_, _, -, helems, rfl⟩
  · exact hm
  · rw [rqmElements_ok helems]
    exact rqmMemory_wf hm _

/-- A failure and a completion differ in STATUS.ERR. -/
theorem succeed_ne_fail (s u : State) (e : ErrCode) : u.succeed ≠ s.fail e := fun h => by
  have := congrArg State.err h
  cases this

theorem winitCheck_of_completed {s u : State} (h : execWinit s = .next u.succeed) : winitCheck s.cfg s.regs = none := by
  rcases execWinit_next h with ⟨e, -, he⟩ | ⟨hc, -⟩
  · exact absurd he (succeed_ne_fail s u e)
  · exact hc

theorem wadvCheck_of_completed {n : Nat} {s u : State} (h : execWadv n s = .next u.succeed) :
    wadvCheck n s.win = none := by
  rcases execWadv_next h with ⟨e, -, he⟩ | ⟨_, hc, -, -⟩
  · exact absurd he (succeed_ne_fail s u e)
  · exact hc

/-- A command keeps the invariant, BUSY apart. -/
theorem exec_inv {i : Instr} {s t : State} (hs : Inv { s with busy := false }) (h : exec i s = .next t) :
    Inv { t with busy := false } := by
  rcases exec_next h with ⟨e, -, rfl⟩ | ⟨lo, hi, rfl, -⟩ | ⟨m, rfl, p, a, rfl⟩ | ⟨rfl, rfl⟩ | ⟨u, rfl, n, rfl, hu⟩ |
    ⟨rfl, rfl⟩ | ⟨rfl, rfl⟩
  · exact hs.fail e
  · exact (hs.setResults lo hi).succeed
  · exact (hs.setMem (memWf_of_execRqm h hs.mem_wf)).succeed
  · have hb := winitWindow_bounds (winitCheck_of_completed h)
    exact (hs.setOpenWindow rfl hb nofun rfl).succeed
  · obtain ⟨hopen, htop⟩ := wadvCheck_eq_none (wadvCheck_of_completed h)
    have hb : OpenBounds s.cfg s.win := hs.open_bounds hopen
    have hlines := loadLines_ok hb.head_lt hb.valid_le hu
    have hwin : u.win = winAfter s.win n := by rw [hlines.frame]
    have hloaded : ResidentLoaded u := hlines.residentLoaded (hs.open_loaded hopen)
    have hring : tabWfFrom 0 s.win.cap u.ring = true := hlines.keys (hs.open_ring hopen)
    refine (hs.setOpenWindow (w := u.win) ?_ ?_ hloaded ?_).succeed <;> rw [hwin]
    · exact hopen
    · exact hb.winAfter htop
    · exact hring
  · exact (hs.closeWindow s.win).succeed
  · exact hs.succeed

theorem commandStep_inv {x : Word} {s t : State} (hs : Inv s) (h : commandStep x s = .next t) : Inv t := by
  rcases commandStep_next h with ⟨_, -, rfl⟩ | ⟨i, u, -, hu, rfl⟩
  · exact hs.clearBusy.fail .illegal
  · exact exec_inv (s := { s with busy := true }) hs.clearBusy hu

theorem writeReg_inv {s : State} (hs : Inv s) (r : Reg) (v : Word) : Inv (writeReg r v s) := by
  rw [writeReg_eq]
  apply hs.setRegs
  · rcases writeReg_pcMult r v s with h | ⟨hi, h⟩ <;> rw [h]
    · exact hs.pcMult_wf
    · exact tabWfFrom_tabSet hs.pcMult_wf (Nat.zero_le _) hi v
  · rcases writeReg_pcShift r v s with h | ⟨hi, h⟩ <;> rw [h]
    · exact hs.pcShift_wf
    · exact tabWfFrom_tabSet hs.pcShift_wf (Nat.zero_le _) hi v

theorem hostOp_inv {op : HostOp} {s t : State} (hs : Inv s) (h : hostOp op s = .next t) : Inv t := by
  rcases hostOp_next h with ⟨_, -, rfl⟩ | ⟨_, v, r, -, -, -, rfl⟩ | ⟨_, _, -, -, rfl⟩ | ⟨_, _, -, -, hc⟩ | ⟨a, b, -, rfl⟩ |
    ⟨-, rfl⟩
  · exact hs.setRdata _
  · exact writeReg_inv hs r v
  · exact hs
  · exact commandStep_inv hs hc
  · exact hs.setMem (memWf_memWrite1 hs.mem_wf a.isLt b)
  · exact inv_of_resetValues hs.params_wf hs.mem_wf _ _ _ _

/-- Settles O58, update by update: a step is idle or an event, an event an access, a memory write, a reset or a command. -/
theorem stepKeepsTheInvariant : Obligations.StepKeepsTheInvariant := by
  intro s t hs h
  rcases step_next h with ⟨-, rfl⟩ | ⟨op, rest, -, hop⟩
  · exact hs
  · exact hostOp_inv (hs.setPending rest) hop

/-! ### An open window holds its lines -/

/-- With nothing resident there is nothing to hold. -/
theorem windowHolds_of_empty {s : State} (h : s.win.valid = 0) : WindowHolds s := fun r _ hr => by omega

/-- A command that leaves memory as it is leaves an open window holding its lines. -/
theorem exec_windowHolds {i : Instr} {s t : State} (hb : s.win.isOpen = true → OpenBounds s.cfg s.win)
    (hw : s.win.isOpen = true → WindowHolds s) (h : exec i s = .next t) (hm : t.mem = s.mem)
    (ho : t.win.isOpen = true) : WindowHolds t := by
  rcases exec_next h with ⟨e, -, rfl⟩ | ⟨lo, hi, rfl, -⟩ | ⟨m, rfl, -⟩ | ⟨rfl, -⟩ | ⟨u, rfl, n, rfl, hu⟩ | ⟨rfl, -⟩ |
    ⟨rfl, -⟩
  · exact hw ho
  · exact hw ho
  · obtain rfl : m = s.mem := hm
    exact hw ho
  · exact windowHolds_of_empty rfl
  · obtain ⟨hopen, -⟩ := wadvCheck_eq_none (wadvCheck_of_completed h)
    have hlines := loadLines_ok (hb hopen).head_lt (hb hopen).valid_le hu
    have hu' := hlines.windowHolds (hw hopen)
    rw [loadLines_frame hu] at hu'
    exact hu'
  · cases ho
  · exact hw ho

theorem commandStep_windowHolds {x : Word} {s t : State} (hs : Inv s) (hw : s.win.isOpen = true → WindowHolds s)
    (h : commandStep x s = .next t) (hm : t.mem = s.mem) (ho : t.win.isOpen = true) : WindowHolds t := by
  rcases commandStep_next h with ⟨_, -, rfl⟩ | ⟨i, u, -, hu, rfl⟩
  · exact hw ho
  · exact exec_windowHolds (t := u) (s := { s with busy := true }) hs.open_bounds hw hu hm ho

theorem writeReg_windowHolds {s : State} (r : Reg) (v : Word) (hw : s.win.isOpen = true → WindowHolds s)
    (ho : (writeReg r v s).win.isOpen = true) : WindowHolds (writeReg r v s) := by
  rw [writeReg_eq] at ho ⊢
  exact hw ho

theorem hostOp_windowHolds {op : HostOp} {s t : State} (hs : Inv s) (hw : s.win.isOpen = true → WindowHolds s)
    (h : hostOp op s = .next t) (hm : t.mem = s.mem) (ho : t.win.isOpen = true) : WindowHolds t := by
  rcases hostOp_next h with ⟨_, -, rfl⟩ | ⟨_, v, r, -, -, -, rfl⟩ | ⟨_, _, -, -, rfl⟩ | ⟨_, _, -, -, hc⟩ | ⟨a, b, -, rfl⟩ |
    ⟨-, rfl⟩
  · exact hw ho
  · exact writeReg_windowHolds r v hw ho
  · exact hw ho
  · exact commandStep_windowHolds hs hw hc hm ho
  · have hmem : memWrite1 s.mem a.toNat b = s.mem := hm
    rw [hmem]
    exact hw ho
  · cases ho

/-- Settles O44, by the same descent as O58: only WADV adds lines, and those it has just loaded. -/
theorem stepKeepsTheWindowHoldingItsLines : Obligations.StepKeepsTheWindowHoldingItsLines := by
  intro s t hs hw h hm ho
  rcases step_next h with ⟨-, rfl⟩ | ⟨op, rest, -, hop⟩
  · exact hw ho
  · exact hostOp_windowHolds (hs.setPending rest) hw hop hm ho

end Sys2Proof
end

section
/-! PROOFS. What a command leaves unchanged (spec/10_state.md R28, R29, R37, R40, R45, R46), state component by component, from the one inversion of `exec`. -/

namespace Sys2Proof.Machine

/-- Settles O51: no outcome of a command touches these fields. -/
theorem commandsLeaveRegistersAndTableAlone : Obligations.CommandsLeaveRegistersAndTableAlone := by
  intro i s t h
  rcases exec_next h with ⟨_, -, rfl⟩ | ⟨_, _, rfl, -⟩ | ⟨_, rfl, -⟩ | ⟨rfl, -⟩ | ⟨_, rfl, -⟩ | ⟨rfl, -⟩ | ⟨rfl, -⟩ <;>
    simp

/-- A command leaves RESULT, or is a scalar command that completed. -/
theorem exec_result {i : Instr} {s t : State} (h : exec i s = .next t) :
    (t.resultLo = s.resultLo ∧ t.resultHi = s.resultHi) ∨
    (t.err = false ∧ ((∃ a, i = .rq a) ∨ (∃ ch a, i = .rqpc ch a) ∨ (∃ r k, i = .wrd r k) ∨ i = .sizeq)) := by
  rcases exec_next h with ⟨_, -, rfl⟩ | ⟨_, _, rfl, hi⟩ | ⟨_, rfl, -⟩ | ⟨rfl, -⟩ | ⟨_, rfl, -⟩ | ⟨rfl, -⟩ | ⟨rfl, -⟩
  case inr.inl => exact .inr ⟨rfl, hi⟩
  all_goals exact .inl ⟨rfl, rfl⟩

/-- Settles O52, as the contrapositive of `exec_result`. -/
theorem onlyScalarCommandsWriteResult : Obligations.OnlyScalarCommandsWriteResult := by
  intro i s t h hne
  rcases exec_result h with ⟨hlo, hhi⟩ | hscalar
  · exact absurd hne (by simp [hlo, hhi])
  · exact hscalar

/-- A command leaves the window and the ring, or is one of the three window commands. -/
theorem exec_window {i : Instr} {s t : State} (h : exec i s = .next t) :
    (t.win = s.win ∧ t.ring = s.ring ∧ t.ringGen = s.ringGen) ∨ i = .winit ∨
    ((∃ n, i = .wadv n) ∧ t.ringGen = s.ringGen) ∨ (i = .wclose ∧ t.ring = s.ring ∧ t.ringGen = s.ringGen) := by
  rcases exec_next h with ⟨_, -, rfl⟩ | ⟨_, _, rfl, -⟩ | ⟨_, rfl, -⟩ | ⟨-, hi⟩ | ⟨_, rfl, n, hi, -⟩ | ⟨rfl, hi⟩ | ⟨rfl, -⟩
  case inr.inr.inr.inl => exact .inr (.inl hi)
  case inr.inr.inr.inr.inl => exact .inr (.inr (.inl ⟨⟨n, hi⟩, rfl⟩))
  case inr.inr.inr.inr.inr.inl => exact .inr (.inr (.inr ⟨hi, rfl, rfl⟩))
  all_goals exact .inl ⟨rfl, rfl, rfl⟩

/-- Settles O54: the ring's cells read as before wherever the ring and its generation are as before. -/
theorem onlyWindowCommandsChangeTheWindow : Obligations.OnlyWindowCommandsChangeTheWindow := by
  intro i s t h
  have cells (hr : t.ring = s.ring) (hg : t.ringGen = s.ringGen) (slot p : Nat) : ringCell t slot p = ringCell s slot p :=
    ringCell_congr (by rw [hr]) hg p
  rcases exec_window h with ⟨hw, hr, hg⟩ | rfl | ⟨hn, hg⟩ | ⟨rfl, hr, hg⟩
  · exact ⟨(absurd hw ·), (absurd hr ·), (absurd hg ·), fun slot p => (absurd (cells hr hg slot p) ·)⟩
  · simp
  · exact ⟨fun _ => .inr (.inr hn), fun _ => .inr hn, (absurd hg ·), fun _ _ _ => .inr hn⟩
  · exact ⟨fun _ => .inr (.inl rfl), (absurd hr ·), (absurd hg ·), fun slot p => (absurd (cells hr hg slot p) ·)⟩

end Sys2Proof.Machine
end

section
/-! PROOFS. Host accesses of the register map (spec/10_state.md R22 to R43, R49; spec/42_host_interface.md R200, R201): one lemma for a read and one for a write of a register, one for a reserved offset, and the registers one by one from there. -/

namespace Sys2Proof.Machine

open Sys2Proof.Statement

/-! ### Offsets -/

/-- Every listed offset is a multiple of 4 (R42). -/
theorem accessDefined_of_regAt {off : BitVec 8} {r : Reg} (h : regAt off = some r) :
    accessDefined .word off = true := by
  have listed : ∀ o : BitVec 8, (regAt o).isSome = true → accessDefined .word o = true := by decide
  exact listed off (by rw [h]; rfl)

theorem accessDefined_of_aligned {off : BitVec 8} (h : off.toNat % 4 = 0) : accessDefined .word off = true := by
  simp [accessDefined, h]

/-- The gaps of the map hold no register (R43). -/
theorem regAt_reserved : ∀ {off : BitVec 8}, off.toNat % 4 = 0 →
    (0x64 ≤ off.toNat ∧ off.toNat ≤ 0x7C) ∨ 0xD4 ≤ off.toNat → regAt off = none := by decide

/-! ### An access as one step -/

section
variable {s : State} {off : BitVec 8} {r : Reg} {v : Word} {g : Regs} {rest : List HostOp}

theorem step_read (h : accessDefined .word off = true) :
    step (about s (.read .word off) rest) = .next (hostRead off { s with busy := false, pending := rest }) := by
  simp [step, hostStep, about, hostOp, h]

theorem step_write (h : accessDefined .word off = true) :
    step (about s (.write .word off v) rest) = hostWrite off v { s with busy := false, pending := rest } := by
  simp [step, hostStep, about, hostOp, h]

/-- A register's reading does not depend on the events to come (log 2). -/
theorem readReg_setPending (r : Reg) (s : State) (p : List HostOp) : readReg r { s with pending := p } = readReg r s := by
  cases r <;> rfl

theorem readsAs_of_regAt (hr : regAt off = some r) (hv : readReg r { s with busy := false } = v) : readsAs s off v := by
  intro rest
  have hpend := readReg_setPending r { s with busy := false } rest
  rw [step_read (accessDefined_of_regAt hr), hostRead, hr]
  simp only [hpend, hv]

theorem step_write_reg (hr : regAt off = some r) (hc : r ≠ .cmd) :
    step (about s (.write .word off v) rest) = .next (writeReg r v { s with busy := false, pending := rest }) := by
  rw [step_write (accessDefined_of_regAt hr)]
  simp only [hostWrite, hr]

/-- A write of a register other than the two ports. -/
theorem writeReg_of_not_port (hm : r ≠ .pcMult) (hs : r ≠ .pcShift) (v : Word) (s : State) :
    writeReg r v s = { s with regs := writeStored r v s.regs } := by
  cases r with
  | pcMult | pcShift => contradiction
  | _ => rfl

/-- A write of a register without an entry in `pc_tab` stores what `writeStored` says, and nothing else. -/
theorem stores_of_regAt (hr : regAt off = some r) (hc : r ≠ .cmd) (hm : r ≠ .pcMult) (hs : r ≠ .pcShift)
    (hg : writeStored r v s.regs = g) : stores s off v g := by
  intro rest
  rw [step_write_reg hr hc, writeReg_of_not_port hm hs, hg]

theorem reserved_readsAs_zero (ha : off.toNat % 4 = 0) (hr : regAt off = none) : readsAs s off 0 := by
  intro rest
  rw [step_read (accessDefined_of_aligned ha), hostRead, hr]

theorem reserved_ignores_write (ha : off.toNat % 4 = 0) (hr : regAt off = none) : stores s off v s.regs := by
  intro rest
  rw [step_write (accessDefined_of_aligned ha), hostWrite, hr]

theorem step_reset : step (about s .reset rest) = .next (hostReset { s with busy := false, pending := rest }) := rfl

end

/-- Settles O13: no register stands at these offsets. -/
theorem reservedOffsetsReadZeroAndIgnoreWrites : Obligations.ReservedOffsetsReadZeroAndIgnoreWrites := by
  intro s off v ha hoff
  have hr := regAt_reserved ha hoff
  exact ⟨reserved_readsAs_zero ha hr, reserved_ignores_write ha hr⟩

/-! ### The map, register by register -/

/-- STATUS of an idle block is ERR in bit 1 (R25). -/
theorem statusWord_idle (e : Bool) : statusWord false e = if e then 2 else 0 := by cases e <;> rfl

/-- Settles O8: each offset holds its register, and each register reads as listed. -/
theorem registerMapReads : Obligations.RegisterMapReads := by
  intro s
  rw [← statusWord_idle s.err]
  and_intros <;> exact readsAs_of_regAt rfl rfl

/-- After a reset, every register but the build's own and the two ports reads 0 (R49). -/
theorem readReg_hostReset (s : State) {r : Reg} (hid : r ≠ .id) (h0 : r ≠ .cfg0) (h1 : r ≠ .cfg1) (hm : r ≠ .pcMult)
    (hs : r ≠ .pcShift) : readReg r (hostReset s) = 0 := by
  cases r with
  | id | cfg0 | cfg1 | pcMult | pcShift => contradiction
  | status => exact statusWord_idle false
  | qfmt | pcIndex | wFmt => exact BitVec.zero_append_zero
  | _ => rfl

/-- Settles O18: the step is `hostReset`, whose fields and registers hold their reset values. -/
theorem resetRestoresTheResetValues : Obligations.ResetRestoresTheResetValues := fun _ _ =>
  ⟨_, step_reset, rfl, rfl, rfl, rfl, rfl, rfl, rfl, rfl, rfl, rfl, fun _ => readReg_hostReset _⟩

theorem winView_of_open {w : Window} (h : w.isOpen = true) (v : Word) : winView w v = v := if_pos h

theorem winView_of_closed {w : Window} (h : w.isOpen = false) (v : Word) : winView w v = 0 := by
  rw [winView, h, if_neg Bool.false_ne_true]

theorem window_views_closed {s : State} (h : s.win.isOpen = false) :
    readsAs s 0xAC 0 ∧ readsAs s 0xB0 0 ∧ readsAs s 0xB4 0 ∧ readsAs s 0xB8 0 ∧ readsAs s 0xBC 0 := by
  and_intros <;> exact readsAs_of_regAt rfl (winView_of_closed h _)

/-- Settles O9: the views of an open and of a closed window; reset closes it. -/
theorem windowStatusRegistersViewTheWindow : Obligations.WindowStatusRegistersViewTheWindow := by
  intro s rest v
  refine ⟨fun ho => ?_, window_views_closed, ⟨_, step_reset, window_views_closed rfl⟩, ?_⟩
  · and_intros <;> exact readsAs_of_regAt rfl (winView_of_open ho _)
  · and_intros <;> exact stores_of_regAt rfl (by decide) (by decide) (by decide) rfl

/-! ### The build registers -/

/-- The fields of ID (R22), mode by mode and fraction by fraction. -/
theorem idWord_fields (p : Params) :
    (idWord p).extractLsb' 0 8 = 0x01 ∧ ((idWord p).getLsbD 8 = true ↔ p.rmode = .single) ∧
    (idWord p).extractLsb' 9 7 = 0 ∧ ((idWord p).extractLsb' 16 5).toNat = p.frac.toNat ∧
    (idWord p).extractLsb' 21 11 = 0 := by
  unfold idWord
  cases p.rmode <;> cases p.frac <;> decide

/-- The fields of CFG0 (R23). -/
theorem cfg0Word_fields (p : Params) :
    ((cfg0Word p).extractLsb' 0 16).toNat + 1 = p.nchMax ∧ (cfg0Word p).extractLsb' 16 16 = 0 :=
  ⟨by rw [cfg0Word, BitVec.extractLsb'_append_eq_right, Params.nchMax], BitVec.extractLsb'_append_eq_left⟩

/-- Settles O10: the values are functions of the build parameters, which no step changes. -/
theorem identificationRegistersReportTheBuild : Obligations.IdentificationRegistersReportTheBuild := by
  intro s
  refine ⟨?_, fun v => ?_, fun t h => ?_⟩
  · obtain ⟨hver, hmode, hres, hfrac, hres'⟩ := idWord_fields s.cfg
    exact ⟨idWord s.cfg, cfg0Word s.cfg, readsAs_of_regAt rfl rfl, readsAs_of_regAt rfl rfl, readsAs_of_regAt rfl rfl,
      hver, hmode, hres, hfrac, hres', cfg0Word_fields s.cfg⟩
  · and_intros <;> exact stores_of_regAt rfl (by decide) (by decide) (by decide) rfl
  · simp only [readReg, step_cfg h, and_self]

/-! ### The per-channel ports -/

theorem pcMultAt_tabSet (s : State) (k c : Nat) (v : Word) :
    pcMultAt { s with pcMult := tabSet s.pcMult k v } c = if c = k then v else pcMultAt s c := by
  simp only [pcMultAt, tabGet_tabSet]
  split <;> rfl

theorem pcShiftAt_tabSet (s : State) (k c : Nat) (v : Word) :
    pcShiftAt { s with pcShift := tabSet s.pcShift k v } c = if c = k then v else pcShiftAt s c := by
  simp only [pcShiftAt, tabGet_tabSet]
  split <;> rfl

theorem pcIndexValid_of_lt {s : State} (h : s.regs.pcIndex.toNat < s.cfg.nchMax) : pcIndexValid s = true :=
  decide_eq_true h

theorem pcIndexValid_of_le {s : State} (h : s.cfg.nchMax ≤ s.regs.pcIndex.toNat) : ¬pcIndexValid s = true := by
  simpa [pcIndexValid] using h

/-- A port write with PC_INDEX out of range is ignored (R35, R36). -/
theorem stores_of_ignored {s : State} {off : BitVec 8} {r : Reg} {v : Word} (hr : regAt off = some r) (hc : r ≠ .cmd)
    (hw : ∀ rest, writeReg r v { s with busy := false, pending := rest } = { s with busy := false, pending := rest }) :
    stores s off v s.regs := by
  intro rest
  rw [step_write_reg hr hc, hw]

/-- Settles O15: both ports go through `pcIndexValid`, and a stored entry reads back alone. -/
theorem perChannelPortsAccessTheSelectedEntry : Obligations.PerChannelPortsAccessTheSelectedEntry := by
  intro s rest v
  refine ⟨fun hidx => ⟨?_, ?_, ?_, ?_⟩, fun hidx => ⟨?_, ?_, ?_, ?_⟩⟩
  · exact readsAs_of_regAt (r := .pcMult) rfl (if_pos (pcIndexValid_of_lt hidx))
  · exact readsAs_of_regAt (r := .pcShift) rfl (if_pos (pcIndexValid_of_lt hidx))
  · have hw := step_write_reg (s := s) (off := 0x3C) (r := .pcMult) (v := v) (rest := rest) rfl (by decide)
    exact ⟨_, hw.trans (congrArg _ (if_pos (pcIndexValid_of_lt hidx))), rfl, fun c => pcMultAt_tabSet s _ c v⟩
  · have hw := step_write_reg (s := s) (off := 0x40) (r := .pcShift) (v := v) (rest := rest) rfl (by decide)
    exact ⟨_, hw.trans (congrArg _ (if_pos (pcIndexValid_of_lt hidx))), rfl, fun c => pcShiftAt_tabSet s _ c v⟩
  · exact readsAs_of_regAt (r := .pcMult) rfl (if_neg (pcIndexValid_of_le hidx))
  · exact readsAs_of_regAt (r := .pcShift) rfl (if_neg (pcIndexValid_of_le hidx))
  · exact stores_of_ignored (r := .pcMult) rfl (by decide) fun _ => if_neg (pcIndexValid_of_le hidx)
  · exact stores_of_ignored (r := .pcShift) rfl (by decide) fun _ => if_neg (pcIndexValid_of_le hidx)

end Sys2Proof.Machine
end

section
/-! PROOFS. System memory (spec/20_memory.md R70 to R80): a stored word byte by byte, alignment, what a command leaves of memory, and another agent's write. -/

namespace Sys2Proof.Machine

open Sys2Proof.Statement

/-! ### Words -/

/-- Truncation to `n` bytes keeps every byte below `n` (R11). -/
theorem emod_pow_byte (v : Int) {k n : Nat} (hk : k < n) :
    v % 256 ^ n / 256 ^ k % 256 = v / 256 ^ k % 256 := by
  obtain ⟨d, rfl⟩ := Nat.exists_eq_add_of_lt hk
  have high : v % 256 ^ (k + d + 1) = v + 256 ^ k * (256 * -(256 ^ d * (v / 256 ^ (k + d + 1)))) := by
    rw [Int.emod_def]; ring
  rw [high, Int.add_mul_ediv_left _ _ (by positivity), Int.add_mul_emod_self_left]

theorem two_pow_bytes (n : Nat) : (2 : Int) ^ (8 * n) = 256 ^ n := by rw [pow_mul]; norm_num

/-- A write stores its value's low `n` bytes (R14). -/
theorem memWrite_eq_memStore (m : Memory) (addr n : Nat) (v : Int) :
    memWrite m addr n v = memStore m addr n (v % 256 ^ n).toNat := by
  rw [memWrite, two_pow_bytes]

theorem toNat_emod_pow (v : Int) (n : Nat) : ((v % 256 ^ n).toNat : Int) = v % 256 ^ n :=
  Int.toNat_of_nonneg (Int.emod_nonneg _ (by positivity))

/-- Byte `k` of a written word is its bits `[8k+7:8k]` (R71). -/
theorem memRead1_memWrite_eq {m : Memory} (hm : Memory.wf m = true) {addr n k : Nat} (v : Int)
    (hw : addr + n ≤ 2 ^ 32) (hk : k < n) :
    ((memRead1 (memWrite m addr n v) (addr + k)).toNat : Int) = v / 256 ^ k % 256 := by
  rw [memWrite_eq_memStore, memRead1_memStore_eq hm hw hk]
  push_cast
  rw [toNat_emod_pow, emod_pow_byte v hk]

/-- A written word reads back modulo its width (R14). -/
theorem memRead_memWrite {m : Memory} (hm : Memory.wf m = true) {addr n : Nat} (v : Int) (hw : addr + n ≤ 2 ^ 32) :
    (memRead (memWrite m addr n v) addr n : Int) = v % 2 ^ (8 * n) := by
  rw [memWrite_eq_memStore, memRead_memStore hm hw, two_pow_bytes]
  push_cast
  rw [toNat_emod_pow, Int.emod_emod]

/-- A write leaves every byte apart from it alone, in any memory (R71). -/
theorem memRead1_memWrite_ne {m : Memory} {addr n a : Nat} {v : Int} (hw : addr + n ≤ 2 ^ 32)
    (h : apart a 1 addr n) : memRead1 (memWrite m addr n v) a = memRead1 m a :=
  memRead1_memStore_ne hw (by unfold apart at h; omega)

/-- Settles O21, from the byte laws of a word read and of a word written. -/
theorem memoryWordsAreLittleEndian : Obligations.MemoryWordsAreLittleEndian := fun m addr n v hm hw =>
  ⟨fun _ hk => memRead_byte hw hk, memRead_lt m addr n, fun _ hk => memRead1_memWrite_eq hm v hw hk,
    fun _ ha => memRead1_memWrite_ne hw ha⟩

/-! ### Alignment -/

theorem wrap32_lt (v : Int) : wrap32 v < 2 ^ 32 := by unfold wrap32; omega

theorem natCast_wrap32 (v : Int) : (wrap32 v : Int) = v % 2 ^ 32 :=
  Int.toNat_of_nonneg (Int.emod_nonneg v (by norm_num))

/-- Wrapping keeps a multiple of a width that divides `2^32` (R74, R77). -/
theorem wrap32_mod_eq_zero {n : Nat} {v : Int} (hn : n ∣ 2 ^ 32) (hv : (n : Int) ∣ v) : wrap32 v % n = 0 := by
  have hn' : (n : Int) ∣ 2 ^ 32 := by exact_mod_cast hn
  zify
  rw [natCast_wrap32, Int.emod_emod_of_dvd v hn', Int.emod_eq_zero_of_dvd hv]

/-- A register that passed an alignment check is a multiple of the width, as an integer. -/
theorem natCast_dvd_of_mod {n a : Nat} (h : a % n = 0) : (n : Int) ∣ a :=
  Int.natCast_dvd_natCast.2 (Nat.dvd_of_mod_eq_zero h)

theorem accBytes_dvd (a : AccWidth) : accBytes a ∣ 2 ^ 32 := by cases a <;> decide

theorem outBytes_dvd (fmt : OutFmt) : outBytes fmt ∣ 2 ^ 32 := by cases fmt <;> decide

theorem elemBytes_dvd (e : Elem) : elemBytes e ∣ 2 ^ 32 := by cases e <;> decide

theorem rqmSrcAddr_aligned {a : AccWidth} {fmt : OutFmt} {g : Regs} (h : rqmAligned a fmt g) (i : Nat) :
    rqmSrcAddr g i % accBytes a = 0 := by
  obtain ⟨hsrc, hstr, -, -⟩ := h
  exact wrap32_mod_eq_zero (accBytes_dvd a)
    (dvd_add (natCast_dvd_of_mod hsrc) (dvd_mul_of_dvd_right (natCast_dvd_of_mod hstr) _))

theorem rqmDstAddr_aligned {a : AccWidth} {fmt : OutFmt} {g : Regs} (h : rqmAligned a fmt g) (i : Nat) :
    rqmDstAddr g i % outBytes fmt = 0 := by
  obtain ⟨-, -, hdst, hstr⟩ := h
  exact wrap32_mod_eq_zero (outBytes_dvd fmt)
    (dvd_add (natCast_dvd_of_mod hdst) (dvd_mul_of_dvd_right (natCast_dvd_of_mod hstr) _))

theorem winAddr_aligned {c : Params} {w : Window} (h : OpenBounds c w) (l p : Int) :
    winAddr w l p % elemBytes w.elem = 0 :=
  wrap32_mod_eq_zero (elemBytes_dvd w.elem)
    (dvd_add (dvd_add (natCast_dvd_of_mod h.src_aligned) (dvd_mul_of_dvd_right (natCast_dvd_of_mod h.py_aligned) _))
      (dvd_mul_of_dvd_right (natCast_dvd_of_mod h.px_aligned) _))

/-- Settles O22: each address is a sum of multiples of the width, wrapped modulo a multiple of it. -/
theorem commandAccessesAreAligned : Obligations.CommandAccessesAreAligned :=
  ⟨fun _ _ _ i h => ⟨rqmSrcAddr_aligned h i, rqmDstAddr_aligned h i⟩, fun _ _ l p h => winAddr_aligned h l p⟩

/-- Of two multiples of a width, the greater is at least a width above the smaller. -/
theorem add_le_of_aligned {n a b : Nat} (ha : a % n = 0) (hb : b % n = 0) (h : a < b) : a + n ≤ b :=
  Nat.ModEq.add_le_of_lt (ha.trans hb.symm) h

/-! ### Who writes memory -/

/-- Settles O53: of all outcomes of a command, only a completed RQM has another memory. -/
theorem onlyRqmWritesSystemMemory : Obligations.OnlyRqmWritesSystemMemory := by
  intro i s t h hne
  rcases exec_next h with ⟨_, -, rfl⟩ | ⟨_, _, rfl, -⟩ | ⟨_, -, p, a, hi⟩ | ⟨rfl, -⟩ | ⟨_, rfl, -⟩ | ⟨rfl, -⟩ | ⟨rfl, -⟩
  case inr.inr.inl => exact absurd hi (hne p a)
  all_goals rfl

/-- An idle block takes another agent's write as the memory write it is (R80). -/
theorem step_memWrite (s : State) (addr : Word) (b : Byte) (rest : List HostOp) :
    step (about s (.memWrite addr b) rest) = hostMemWrite addr b { s with busy := false, pending := rest } := rfl

/-- Settles O60, by whether ordinary memory stands at the address; there, the laws of one written byte. -/
theorem memoryWriteEventSetsOneByte : Obligations.MemoryWriteEventSetsOneByte := by
  intro s addr b rest
  rw [step_memWrite, hostMemWrite]
  refine ⟨fun h => ⟨memWrite1 s.mem addr.toNat b, by simp only [h], fun a ha => memRead1_memWrite1_ne s.mem ha b,
    fun hm => ⟨?_, memWf_memWrite1 hm addr.isLt b⟩⟩, fun h => ?_⟩
  · rw [memRead1_memWrite1 hm, if_pos rfl]
  · obtain ⟨st, hst⟩ := Option.ne_none_iff_exists'.1 h
    simp only [hst]

end Sys2Proof.Machine
end

section
/-! PROOFS. Where RQM and WADV stop (spec/20_memory.md R76, R79, R80(1)): the checks that come before any access, then the first access off ordinary memory. -/

namespace Sys2Proof.Machine

open Sys2Proof.Statement

/-! ### A stopped access -/

/-- An access is stopped by the first of its bytes that is not on ordinary memory. -/
theorem busStop_eq_some_iff {c : Params} {addr n : Nat} {st : Stop} :
    busStop c addr n = some st ↔
      ∃ k, k < n ∧ busStop1 c ((addr + k) % 2 ^ 32) = some st ∧
        ∀ j, j < k → busStop1 c ((addr + j) % 2 ^ 32) = none := by
  induction n generalizing addr with
  | zero => simp [busStop]
  | succ n ih =>
    simp only [Nat.exists_lt_succ_left, Nat.forall_lt_succ_left, busStop]
    cases h : busStop1 c (addr % 2 ^ 32) with
    | some st' => simp
    | none => simp [ih, add_assoc, add_comm 1]

/-- A command whose meaning ends in a stop has no next state. -/
theorem stopsWith_of_exec {i : Instr} {s : State} {st : Stop} (h : exec i s = st.outcome) : stopsWith i s st :=
  ⟨fun _ hst => by rw [h, hst]; rfl, fun _ hst => by rw [h, hst]; rfl⟩

/-! ### RQM -/

theorem rqmMisaligned_eq_false {a : AccWidth} {fmt : OutFmt} {g : Regs} :
    rqmMisaligned a fmt g = false ↔ rqmAligned a fmt g := by
  simp [rqmMisaligned, rqmAligned]

theorem rqmChannelsBad_eq_false {p : Params} {g : Regs} :
    rqmChannelsBad p g = false ↔
      g.rqRun ≠ 0 ∧ g.rqNch ≠ 0 ∧ g.rqNch.toNat ≤ p.nchMax ∧ g.rqCh0.toNat < g.rqNch.toNat := by
  simp [rqmChannelsBad, BitVec.toNat_eq]

theorem shiftBad_eq_false {s : Int} : shiftBad s = false ↔ -31 ≤ s ∧ s ≤ 31 := by
  simp [shiftBad]

theorem zpBad_eq_false {z : Int} {fmt : OutFmt} : zpBad z fmt = false ↔ outMin fmt ≤ z ∧ z ≤ outMax fmt := by
  simp [zpBad]

theorem someBelow_eq_false {p : Nat → Bool} {n : Nat} : someBelow p n = false ↔ ∀ i, i < n → p i = false := by
  simp [← Bool.not_eq_true, someBelow_iff]

theorem rqmMult_eq (perch : Bool) (s : State) (i : Nat) : rqmMult perch s i = elementMult perch s i := by
  cases perch <;> rfl

theorem rqmShift_eq (perch : Bool) (s : State) (i : Nat) : rqmShift perch s i = elementShift perch s i := by
  cases perch <;> rfl

/-- The checks of multipliers and shifts pass exactly when the channels, multipliers and shifts in use are legal (R128). -/
theorem rqmCheckScale_eq_none {perch : Bool} {s : State} :
    rqmCheckScale perch s = none ↔ rqmChannels perch s ∧ rqmMults perch s ∧ rqmShifts perch s := by
  cases perch with
  | false =>
    simp [rqmCheckScale, check_eq_none, rqmChannels, rqmMults, rqmShifts, shiftBad_eq_false]
  | true =>
    simp [rqmCheckScale, check_eq_none, rqmChannels, rqmMults, rqmShifts, shiftBad_eq_false,
      rqmChannelsBad_eq_false, someBelow_eq_false, rqmMult_eq, rqmShift_eq]

/-- An RQM that is ready passes its checks (R128). -/
theorem rqmCheck_of_ready {perch : Bool} {a : AccWidth} {fmt : OutFmt} {s : State} (h : rqmReady perch a fmt s) :
    rqmCheck perch a s = .ok fmt := by
  obtain ⟨hfmt, ⟨hsrc, hdst⟩, halign, hch, hmult, hshift, hzp⟩ := h
  have hscale := rqmCheckScale_eq_none.2 ⟨hch, hmult, hshift⟩
  simp only [rqmCheck, hfmt, hsrc, hdst, rqmMisaligned_eq_false.2 halign, hscale, zpBad_eq_false.2 hzp, or_self,
    if_false, Bool.false_eq_true]

/-- A ready RQM stops where one of its elements does, whatever elements were to follow. -/
theorem exec_rqm_of_stop {perch : Bool} {a : AccWidth} {fmt : OutFmt} {s : State} {n : Nat} {st : Stop}
    (h : rqmReady perch a fmt s) (hn : n ≤ s.regs.rqCnt.toNat) (hst : rqmElements perch a fmt s n = .error st) :
    exec (.rqm perch a) s = st.outcome := by
  simp only [exec, execRqm, rqmCheck_of_ready h, rqmElements_error_of_le hst hn]

theorem rqmElement_of_readStop {perch : Bool} {a : AccWidth} {fmt : OutFmt} {s : State} {i : Nat} {st : Stop}
    (m : Memory) (h : busStop s.cfg (rqmSrcAddr s.regs i) (accBytes a) = some st) :
    rqmElement perch a fmt s m i = .error st := by
  simp only [rqmElement, busRead, h]

theorem rqmElement_of_writeStop {perch : Bool} {a : AccWidth} {fmt : OutFmt} {s : State} {i : Nat} {st : Stop}
    (m : Memory) (hr : busStop s.cfg (rqmSrcAddr s.regs i) (accBytes a) = none)
    (h : busStop s.cfg (rqmDstAddr s.regs i) (outBytes fmt) = some st) :
    rqmElement perch a fmt s m i = .error st := by
  simp only [rqmElement, busRead_ok hr, busWrite, h]

/-- Settles O38: the elements before `i` complete, and element `i` stops at its read or at its write. -/
theorem rqmStopsAtAnAccessOutsideOrdinaryMemory : Obligations.RqmStopsAtAnAccessOutsideOrdinaryMemory := by
  refine ⟨fun _ _ _ _ => busStop_eq_some_iff, fun perch a fmt s i st hready hi hbefore => ?_⟩
  have stops (he : rqmElement perch a fmt s (rqmMemory perch a fmt s i) i = .error st) :
      stopsWith (.rqm perch a) s st := by
    have helems : rqmElements perch a fmt s (i + 1) = .error st := by
      rw [rqmElements, rqmElements_of_ordinary hbefore, ← he]
    exact stopsWith_of_exec (exec_rqm_of_stop hready hi helems)
  exact ⟨fun hr => stops (rqmElement_of_readStop _ hr), fun hr hw => stops (rqmElement_of_writeStop _ hr hw)⟩

/-! ### WADV -/

/-- A loaded line moves the write cursor one line on, whether it was appended or evicted another (R163, R164). -/
theorem winAdvanced_next (w : Window) :
    (winAdvanced w).top + (winAdvanced w).valid = w.top + w.valid + 1 := by
  unfold winAdvanced
  split <;> simp only <;> omega

/-- Once a line is loaded, its next line is where the line after it was. -/
theorem wadvStop_of_loadNextLine {s t : State} (h : loadNextLine s = .ok t) (j p : Nat) :
    wadvStop t j p = wadvStop s (j + 1) p := by
  obtain ⟨cells, -, rfl⟩ := loadNextLine_ok h
  have hline : (winAdvanced s.win).top + (winAdvanced s.win).valid + j =
      s.win.top + s.win.valid + ((j + 1 : Nat) : Int) := by
    rw [winAdvanced_next]; push_cast; ring
  simp only [wadvStop, hline]
  rw [winAdvanced_eq]; rfl

theorem loadCell_of_wadvStop_eq_none {s : State} {j p : Nat} (h : wadvStop s j p = none) :
    ∃ b, loadCell s.cfg s.mem s.win (s.win.top + s.win.valid + j) p = .ok b :=
  loadCell_of_ordinary fun hr => by simpa only [wadvStop, hr, if_true] using h

theorem loadCell_of_wadvStop {s : State} {j p : Nat} {st : Stop} (h : wadvStop s j p = some st) :
    loadCell s.cfg s.mem s.win (s.win.top + s.win.valid + j) p = .error st := by
  unfold wadvStop at h
  split at h
  · exact loadCell_of_stop ‹_› h
  · cases h

/-- A line none of whose accesses is stopped loads. -/
theorem loadNextLine_of_ordinary {s : State} (h : ∀ q, q < s.win.len → wadvStop s 0 q = none) :
    ∃ t, loadNextLine s = .ok t := by
  obtain ⟨cells, hcells⟩ := loadCells_of_cells fun q hq => loadCell_of_wadvStop_eq_none (h q hq)
  rw [Nat.cast_zero, add_zero] at hcells
  simp only [loadNextLine, hcells, Except.ok.injEq, exists_eq']

/-- A line stops at its first access that is stopped, in increasing position (R162). -/
theorem loadNextLine_of_stop {s : State} {p : Nat} {st : Stop} (hp : p < s.win.len)
    (hbefore : ∀ q, q < p → wadvStop s 0 q = none) (h : wadvStop s 0 p = some st) : loadNextLine s = .error st := by
  obtain ⟨cells, hcells⟩ := loadCells_of_cells fun q hq => loadCell_of_wadvStop_eq_none (hbefore q hq)
  have hcell := loadCell_of_wadvStop h
  rw [Nat.cast_zero, add_zero] at hcells hcell
  have hline : loadCells s.cfg s.mem s.win (s.win.top + s.win.valid) (p + 1) = .error st := by
    simp only [loadCells, hcells, hcell]
  simp only [loadNextLine, loadCells_error_of_le hline hp]

/-- Loading stops at the first access that is stopped, line by line (R162). -/
theorem loadLines_of_stop {n : Nat} {s : State} {j p : Nat} {st : Stop} (hj : j < n) (hp : p < s.win.len)
    (hlines : ∀ k q, k < j → q < s.win.len → wadvStop s k q = none) (hline : ∀ q, q < p → wadvStop s j q = none)
    (h : wadvStop s j p = some st) : loadLines n s = .error st := by
  induction j generalizing n s with
  | zero =>
    obtain ⟨n, rfl⟩ := Nat.exists_eq_add_of_lt hj
    rw [loadLines, loadNextLine_of_stop hp hline h]
  | succ j ih =>
    obtain ⟨n, rfl⟩ := Nat.exists_eq_add_of_lt hj
    obtain ⟨t, ht⟩ := loadNextLine_of_ordinary fun q hq => hlines 0 q (by omega) hq
    have hnext := wadvStop_of_loadNextLine ht
    have hlen : t.win.len = s.win.len := by obtain ⟨_, -, rfl⟩ := loadNextLine_ok ht; simp
    rw [loadLines, ht]
    refine ih (by omega) (by rwa [hlen]) (fun k q hk hq => ?_) (fun q hq => ?_) ?_
    · rw [hnext]; exact hlines (k + 1) q (by omega) (by rwa [hlen] at hq)
    · rw [hnext]; exact hline q hq
    · rw [hnext, h]

theorem wadvCheck_of_open {n : Nat} {w : Window} (ho : w.isOpen = true) (hn : n ≤ w.cap)
    (hl : w.top + w.valid + n ≤ 2 ^ 31 - 1) : wadvCheck n w = none := by
  simp only [wadvCheck, check_eq_none, not_lt, and_true]
  exact ⟨by simp [ho], hn, hl⟩

/-- Settles O59: the checks pass, and loading stops there. -/
theorem wadvStopsAtAnAccessOutsideOrdinaryMemory : Obligations.WadvStopsAtAnAccessOutsideOrdinaryMemory := by
  intro n s j p st ho hn hl hj hp hlines hline h
  refine stopsWith_of_exec ?_
  simp only [exec, execWadv, wadvCheck_of_open ho hn hl, loadLines_of_stop hj hp hlines hline h]

end Sys2Proof.Machine
end

section
/-! PROOFS. What a completed RQM leaves in memory (spec/40_rescale.md R128): an output no later element overwrites, of an accumulator no earlier element has overwritten; and narrowing in place (spec/20_memory.md R81). -/

namespace Sys2Proof.Machine

open Sys2Proof.Statement

/-- A ready RQM on ordinary memory completes with the memory its elements leave. -/
theorem exec_rqm_of_ordinary {perch : Bool} {a : AccWidth} {fmt : OutFmt} {s : State} (h : rqmReady perch a fmt s)
    (ho : rqmOrdinary a fmt s) :
    exec (.rqm perch a) s = .next (State.succeed { s with mem := rqmMemory perch a fmt s s.regs.rqCnt.toNat }) := by
  simp only [exec, execRqm, rqmCheck_of_ready h, rqmElements_of_ordinary ho]

theorem rqmOutput_eq (perch : Bool) (a : AccWidth) (fmt : OutFmt) (s : State) (m : Memory) (i : Nat) :
    rqmOutput perch a fmt s m i = elementOutput perch a fmt s m i := by
  rw [rqmOutput, rqmMult_eq, rqmShift_eq, elementOutput]

theorem outBytes_le (fmt : OutFmt) : outBytes fmt ≤ 4 := by cases fmt <;> decide

theorem rqmSrcAddr_add_le {a : AccWidth} {fmt : OutFmt} {g : Regs} (h : rqmAligned a fmt g) (i : Nat) :
    rqmSrcAddr g i + accBytes a ≤ 2 ^ 32 :=
  add_le_of_aligned (rqmSrcAddr_aligned h i) (Nat.mod_eq_zero_of_dvd (accBytes_dvd a)) (wrap32_lt _)

theorem rqmDstAddr_add_le {a : AccWidth} {fmt : OutFmt} {g : Regs} (h : rqmAligned a fmt g) (i : Nat) :
    rqmDstAddr g i + outBytes fmt ≤ 2 ^ 32 :=
  add_le_of_aligned (rqmDstAddr_aligned h i) (Nat.mod_eq_zero_of_dvd (outBytes_dvd fmt)) (wrap32_lt _)

/-- Different aligned words do not overlap. -/
theorem apart_of_aligned {n a b : Nat} (ha : a % n = 0) (hb : b % n = 0) (h : a ≠ b) : apart a n b n := by
  rcases Nat.lt_or_gt_of_ne h with hlt | hgt
  · exact .inl (add_le_of_aligned ha hb hlt)
  · exact .inr (add_le_of_aligned hb ha hgt)

section
variable {perch : Bool} {a : AccWidth} {fmt : OutFmt} {s : State} {i k n : Nat}

/-- A word apart from the outputs of the elements from `k` on is as it was before element `k`. -/
theorem memRead_rqmMemory_eq {addr len : Nat} (ha : rqmAligned a fmt s.regs) (hk : k ≤ n) (hw : addr + len ≤ 2 ^ 32)
    (hout : ∀ j, k ≤ j → j < n → apart (rqmDstAddr s.regs j) (outBytes fmt) addr len) :
    memRead (rqmMemory perch a fmt s n) addr len = memRead (rqmMemory perch a fmt s k) addr len := by
  induction n, hk using Nat.le_induction with
  | base => rfl
  | succ n hk ih =>
    rw [← ih fun j hkj hj => hout j hkj (by omega)]
    refine memRead_congr hw fun b hb => memRead1_memWrite_ne (rqmDstAddr_add_le ha n) ?_
    have hn := hout n hk (by omega)
    unfold apart at hn ⊢
    omega

/-- An output holds the rescale of the accumulator before the command, if no earlier element wrote into its accumulator and no later one into the output. -/
theorem memRead_rqmMemory_output (hm : Memory.wf s.mem = true) (ha : rqmAligned a fmt s.regs) (hi : i < n)
    (hacc : ∀ j, j < i → apart (rqmDstAddr s.regs j) (outBytes fmt) (rqmSrcAddr s.regs i) (accBytes a))
    (hout : ∀ j, i < j → j < n → apart (rqmDstAddr s.regs j) (outBytes fmt) (rqmDstAddr s.regs i) (outBytes fmt)) :
    (memRead (rqmMemory perch a fmt s n) (rqmDstAddr s.regs i) (outBytes fmt) : Int) =
      elementOutput perch a fmt s s.mem i % 2 ^ (8 * outBytes fmt) := by
  have hread : memRead (rqmMemory perch a fmt s i) (rqmSrcAddr s.regs i) (accBytes a) =
      memRead s.mem (rqmSrcAddr s.regs i) (accBytes a) :=
    memRead_rqmMemory_eq ha (Nat.zero_le i) (rqmSrcAddr_add_le ha i) fun j _ hj => hacc j hj
  rw [memRead_rqmMemory_eq ha hi (rqmDstAddr_add_le ha i) hout, rqmMemory,
    memRead_memWrite (rqmMemory_wf hm i) _ (rqmDstAddr_add_le ha i), rqmOutput_congr hread, rqmOutput_eq]

end

/-! ### Narrowing in place (R81) -/

theorem rqmDstAddr_inPlace {g : Regs} (hb : g.rqDst = g.rqSrc) (hs : g.rqDstr = g.rqSstr) (i : Nat) :
    rqmDstAddr g i = rqmSrcAddr g i := by rw [rqmDstAddr, rqmSrcAddr, hb, hs]

/-- The low bytes of a word are apart from what its word is apart from. -/
theorem apart_low {a n b k : Nat} {n' k' : Nat} (h : apart a n b k) (hn : n' ≤ n) (hk : k' ≤ k) : apart a n' b k' := by
  unfold apart at *
  omega

/-- Settles O37: the accumulator words are disjoint, so an element writes no other element's word, and of its own only the output's bytes. -/
theorem rqmInPlaceNarrowingKeepsUpperBytes : Obligations.RqmInPlaceNarrowingKeepsUpperBytes := by
  intro perch fmt s hm hready ho hbase hstride hdistinct
  refine ⟨_, exec_rqm_of_ordinary hready ho, rfl, fun i hi => ?_⟩
  obtain ⟨-, -, ha, -⟩ := hready
  have hdst := rqmDstAddr_inPlace hbase hstride
  have hwords (j : Nat) (hj : j < s.regs.rqCnt.toNat) (hne : j ≠ i) :
      apart (rqmSrcAddr s.regs j) 4 (rqmSrcAddr s.regs i) 4 :=
    apart_of_aligned (rqmSrcAddr_aligned ha j) (rqmSrcAddr_aligned ha i) (hdistinct j i hj hi hne)
  have hob := outBytes_le fmt
  constructor
  · rw [← hdst i]
    refine memRead_rqmMemory_output hm ha hi (fun j hj => ?_) fun j hij hj => ?_
    · rw [hdst]; exact apart_low (hwords j (by omega) (by omega)) hob le_rfl
    · rw [hdst, hdst]; exact apart_low (hwords j hj (by omega)) hob hob
  · intro k hk hk4
    refine rqmMemory_ne (fun j _ => rqmDstAddr_add_le ha j) fun j hj => ?_
    rw [hdst]
    rcases eq_or_ne j i with rfl | hne
    · omega
    · have hw := hwords j hj hne
      unfold apart at hw
      omega

end Sys2Proof.Machine
end

section
/-! PROOFS. Decoding and encoding (spec/30_encoding.md R92 to R95, R99). By `decode_eq_ok` a decoded command is the row of the table that its word matches, and the word of a command matches its row (`Laws.EncodesItsRow`). What is left: the fields are read where they are written, and a row's fixed bits and its fields make up the whole word. -/

namespace Sys2Proof

open Sys2Proof.Statement Sys2Proof.Machine

theorem OpRow.matches_iff {r : OpRow} {x : Word} : r.matches x = true ↔ x &&& r.mask = r.value := beq_iff_eq

/-- The word of every well-formed command matches its row. -/
theorem encode_matches {i : Instr} (h : i.wf = true) : i.row.matches (encode i) = true := by
  cases i with
  | nop => exact Laws.EncodesItsRow.nop h
  | rq a => exact Laws.EncodesItsRow.rq a h
  | rqpc ch a => exact Laws.EncodesItsRow.rqpc ch a h
  | rqm p a => exact Laws.EncodesItsRow.rqm p a h
  | winit => exact Laws.EncodesItsRow.winit h
  | wadv n => exact Laws.EncodesItsRow.wadv n h
  | wrd r k => exact Laws.EncodesItsRow.wrd r k h
  | wclose => exact Laws.EncodesItsRow.wclose h
  | sizeq => exact Laws.EncodesItsRow.sizeq h

/-! ### The fields as slices of the word (R93) -/

theorem ofBool_getLsbD (x : Word) (i : Nat) : BitVec.ofBool (x.getLsbD i) = x.extractLsb' i 1 := by
  apply BitVec.eq_of_getLsbD_eq
  intro j hj
  obtain rfl : j = 0 := by omega
  simp

theorem bit_fieldAccw (x : Word) : (fieldAccw x).bit = x.extractLsb' 0 1 := by
  rw [← ofBool_getLsbD, fieldAccw]
  cases x.getLsbD 0 <;> rfl

theorem ofBool_fieldPerch (x : Word) : BitVec.ofBool (fieldPerch x) = x.extractLsb' 1 1 := ofBool_getLsbD x 1

/-! ### A field is read where it is written -/

theorem AccWidth.bit_injective : Function.Injective AccWidth.bit := by
  intro a b h
  cases a <;> cases b <;> trivial

theorem fieldAccw_append (hi : BitVec 31) (a : AccWidth) : fieldAccw (hi ++ a.bit) = a :=
  AccWidth.bit_injective (by rw [bit_fieldAccw, BitVec.extractLsb'_append_eq_right])

theorem fieldPerch_append (hi : BitVec 30) (p : Bool) (a : BitVec 1) : fieldPerch (hi ++ BitVec.ofBool p ++ a) = p :=
  BitVec.ofBool_eq_iff_eq.mp (by
    rw [ofBool_fieldPerch, BitVec.extractLsb'_append_eq_of_le le_rfl, BitVec.extractLsb'_append_eq_right])

theorem fieldCh_append (hi : BitVec 8) (ch : BitVec 16) (mid : BitVec 7) (a : BitVec 1) :
    fieldCh (hi ++ ch ++ mid ++ a) = ch.toNat := by
  rw [fieldCh, BitVec.extractLsb'_append_eq_of_le (by decide), BitVec.extractLsb'_append_eq_of_le (by decide),
    BitVec.extractLsb'_append_eq_right]

theorem fieldN_append (hi n : BitVec 16) : fieldN (hi ++ n) = n.toNat := by
  rw [fieldN, BitVec.extractLsb'_append_eq_right]

theorem fieldRow_append (hi : BitVec 8) (r k : BitVec 12) : fieldRow (hi ++ r ++ k) = r.toNat := by
  rw [fieldRow, BitVec.extractLsb'_append_eq_of_le le_rfl, BitVec.extractLsb'_append_eq_right]

theorem fieldCol_append (hi : BitVec 20) (k : BitVec 12) : fieldCol (hi ++ k) = k.toNat := by
  rw [fieldCol, BitVec.extractLsb'_append_eq_right]

theorem mem_tableCommands_encode {i : Instr} (h : i.wf = true) : i ∈ tableCommands (encode i) := by
  cases i with
  | nop | winit | wclose | sizeq => simp [tableCommands]
  | rq a => simp [tableCommands, encode, fieldAccw_append]
  | rqpc ch a =>
    have hch : ch < 65536 := of_decide_eq_true h
    simp [tableCommands, encode, fieldAccw_append, fieldCh_append, Nat.mod_eq_of_lt hch]
  | rqm p a => simp [tableCommands, encode, fieldAccw_append, fieldPerch_append]
  | wadv n =>
    have hn : n < 65536 := of_decide_eq_true h
    simp [tableCommands, encode, fieldN_append, Nat.mod_eq_of_lt hn]
  | wrd r k =>
    obtain ⟨hr, hk⟩ : r < 4096 ∧ k < 4096 := by simpa [Instr.wf] using h
    simp [tableCommands, encode, fieldRow_append, fieldCol_append, Nat.mod_eq_of_lt hr, Nat.mod_eq_of_lt hk]

/-- Settles O2: the command's own row matches its word, and the fields read there are its operands. -/
theorem decodeOfEncodeIsIdentity : Obligations.DecodeOfEncodeIsIdentity := fun _ h =>
  decode_eq_ok.mpr ⟨mem_tableCommands_encode h, encode_matches h⟩

/-! ### A matching word is its row's fixed bits and its fields -/

section
variable {x mask value : Word}

/-- A slice inside the mask holds what the row requires. -/
theorem slice_of_and_eq {start len : Nat} {v : BitVec len} (h : x &&& mask = value)
    (hm : mask.extractLsb' start len = BitVec.allOnes len) (hv : value.extractLsb' start len = v) :
    x.extractLsb' start len = v := by
  rw [← hv, ← h, BitVec.extractLsb'_and, hm, BitVec.and_allOnes]

/-- Two neighbouring slices join. -/
theorem slice_append (x : Word) (start m n : Nat) :
    x.extractLsb' (start + n) m ++ x.extractLsb' start n = x.extractLsb' start (m + n) :=
  BitVec.extractLsb'_append_extractLsb'_eq_extractLsb' rfl

theorem encode_rq_fields (h : x &&& 0xFFFFFFFE = 0x01000000) : encode (.rq (fieldAccw x)) = x := by
  have hop : x.extractLsb' 24 8 = 0x01#8 := slice_of_and_eq h (by decide) (by decide)
  have hzero : x.extractLsb' 1 23 = 0#23 := slice_of_and_eq h (by decide) (by decide)
  rw [encode, bit_fieldAccw, ← hop, ← hzero, slice_append x 1 8 23, slice_append x 0 31 1, BitVec.extractLsb'_eq_self]

theorem encode_rqpc_fields (h : x &&& 0xFF0000FE = 0x02000000) : encode (.rqpc (fieldCh x) (fieldAccw x)) = x := by
  have hop : x.extractLsb' 24 8 = 0x02#8 := slice_of_and_eq h (by decide) (by decide)
  have hzero : x.extractLsb' 1 7 = 0#7 := slice_of_and_eq h (by decide) (by decide)
  simp only [encode, fieldCh, BitVec.ofNat_toNat, BitVec.setWidth_eq]
  rw [bit_fieldAccw, ← hop, ← hzero, slice_append x 8 8 16, slice_append x 1 24 7,
    slice_append x 0 31 1, BitVec.extractLsb'_eq_self]

theorem encode_rqm_fields (h : x &&& 0xFFFFFFFC = 0x03000000) : encode (.rqm (fieldPerch x) (fieldAccw x)) = x := by
  have hop : x.extractLsb' 24 8 = 0x03#8 := slice_of_and_eq h (by decide) (by decide)
  have hzero : x.extractLsb' 2 22 = 0#22 := slice_of_and_eq h (by decide) (by decide)
  rw [encode, ofBool_fieldPerch, bit_fieldAccw, ← hop, ← hzero, slice_append x 2 8 22, slice_append x 1 30 1,
    slice_append x 0 31 1, BitVec.extractLsb'_eq_self]

theorem encode_wadv_fields (h : x &&& 0xFFFF0000 = 0x11000000) : encode (.wadv (fieldN x)) = x := by
  have hop : x.extractLsb' 24 8 = 0x11#8 := slice_of_and_eq h (by decide) (by decide)
  have hzero : x.extractLsb' 16 8 = 0#8 := slice_of_and_eq h (by decide) (by decide)
  simp only [encode, fieldN, BitVec.ofNat_toNat, BitVec.setWidth_eq]
  rw [← hop, ← hzero, slice_append x 16 8 8, slice_append x 0 16 16, BitVec.extractLsb'_eq_self]

theorem encode_wrd_fields (h : x &&& 0xFF000000 = 0x12000000) : encode (.wrd (fieldRow x) (fieldCol x)) = x := by
  have hop : x.extractLsb' 24 8 = 0x12#8 := slice_of_and_eq h (by decide) (by decide)
  simp only [encode, fieldRow, fieldCol, BitVec.ofNat_toNat, BitVec.setWidth_eq]
  rw [← hop, slice_append x 12 8 12, slice_append x 0 20 12, BitVec.extractLsb'_eq_self]

end

/-- A word that matches a row is the encoding of the row's command with the word's fields (R94, R99). -/
theorem encode_of_mem_tableCommands {x : Word} {i : Instr} (hi : i ∈ tableCommands x) (hm : i.row.matches x = true) :
    encode i = x := by
  rw [OpRow.matches_iff] at hm
  have hfixed {v : Word} (h : x &&& 0xFFFFFFFF = v) : v = x := h.symm.trans BitVec.and_allOnes
  simp only [tableCommands, List.mem_cons, List.not_mem_nil, or_false] at hi
  rcases hi with rfl | rfl | rfl | rfl | rfl | rfl | rfl | rfl | rfl
  · exact hfixed hm
  · exact encode_rq_fields hm
  · exact encode_rqpc_fields hm
  · exact encode_rqm_fields hm
  · exact hfixed hm
  · exact encode_wadv_fields hm
  · exact encode_wrd_fields hm
  · exact hfixed hm
  · exact hfixed hm

/-- The fields of a word are in range (R93). -/
theorem wf_of_mem_tableCommands {x : Word} {i : Instr} (h : i ∈ tableCommands x) : i.wf = true := by
  have hch : fieldCh x < 65536 := BitVec.isLt _
  have hn : fieldN x < 65536 := BitVec.isLt _
  have hrow : fieldRow x < 4096 := BitVec.isLt _
  have hcol : fieldCol x < 4096 := BitVec.isLt _
  simp only [tableCommands, List.mem_cons, List.not_mem_nil, or_false] at h
  rcases h with rfl | rfl | rfl | rfl | rfl | rfl | rfl | rfl | rfl <;> simp [Instr.wf, hch, hn, hrow, hcol]

/-- Settles O3: a decoded command's fields come from the word, and the bits outside its fields are those its row fixes. -/
theorem encodeOfDecodeIsIdentity : Obligations.EncodeOfDecodeIsIdentity := by
  intro x i h
  obtain ⟨hi, hm⟩ := decode_eq_ok.mp h
  exact ⟨wf_of_mem_tableCommands hi, encode_of_mem_tableCommands hi hm⟩

/-! ### Words and rows (R94, R95) -/

/-- A row of the table is the command of exactly the words that match it. -/
theorem encodedBy_of_row (n : Nat) {mask value : Word} {i : Word → Instr}
    (hi : ∀ x, (tableCommands x)[n]? = some (i x)) (hr : ∀ x, (i x).row = ⟨mask, value⟩) : encodedBy mask value i := by
  intro x
  rw [decode_eq_ok, OpRow.matches_iff, hr, and_iff_right (List.mem_of_getElem? (hi x))]

/-- Settles O4: the nine rows are those of the table, each with the fields of R93. -/
theorem wordEncodesExactlyTheRowItMatches : Obligations.WordEncodesExactlyTheRowItMatches :=
  ⟨encodedBy_of_row 0 (fun _ => rfl) fun _ => rfl, encodedBy_of_row 1 (fun _ => rfl) fun _ => rfl,
    encodedBy_of_row 2 (fun _ => rfl) fun _ => rfl, encodedBy_of_row 3 (fun _ => rfl) fun _ => rfl,
    encodedBy_of_row 4 (fun _ => rfl) fun _ => rfl, encodedBy_of_row 5 (fun _ => rfl) fun _ => rfl,
    encodedBy_of_row 6 (fun _ => rfl) fun _ => rfl, encodedBy_of_row 7 (fun _ => rfl) fun _ => rfl,
    encodedBy_of_row 8 (fun _ => rfl) fun _ => rfl⟩

theorem matchesNoRow_iff {x : Word} : matchesNoRow x ↔ ∀ i ∈ tableCommands x, ¬i.row.matches x = true := by
  simp [OpRow.matches_iff, matchesNoRow, tableCommands, Instr.row]

/-- R95: `decode` rejects a word that matches no row. -/
theorem decode_eq_error_of_matchesNoRow {x : Word} (h : matchesNoRow x) : ∃ e, decode x = .error e := by
  cases hd : decode x with
  | error e => exact ⟨e, rfl⟩
  | ok i =>
    obtain ⟨hi, hm⟩ := decode_eq_ok.mp hd
    exact absurd hm (matchesNoRow_iff.mp h i hi)

/-- Settles O6: the CMD write finds no command in the word, so it does nothing but fail. -/
theorem illegalWordOnlyRecordsErrIllegal : Obligations.IllegalWordOnlyRecordsErrIllegal := by
  intro s rest x h
  obtain ⟨e, he⟩ := decode_eq_error_of_matchesNoRow h
  have hcmd : regAt 0x14 = some .cmd := rfl
  rw [step_write (accessDefined_of_regAt hcmd)]
  simp only [hostWrite, hcmd, commandStep, he]
  rfl

end Sys2Proof
end

section
/-! PROOFS. The function `Rescale` (spec/40_rescale.md R120 to R125): the rounding modes are RNDA at two places, so what R125 says of them comes from RNDA's laws, and the saturation adds only its bounds. -/

namespace Sys2Proof.Machine

/-! ### RNDA once more -/

@[simp] theorem rnda_zero (n : Nat) : rnda 0 n = 0 := by
  have hodd := rnda_neg 0 n
  rw [neg_zero] at hodd
  omega

theorem two_mul_abs_rnda_sub_le_of_nonneg {x : Int} (n : Nat) (hx : 0 ≤ x) : 2 * |rnda x n * 2 ^ n - x| ≤ 2 ^ n := by
  rcases n.eq_zero_or_pos with rfl | hn
  · simp
  · obtain ⟨hlow, hhigh⟩ := rnda_nearest hn hx
    have half : (2 : Int) ^ n = 2 * 2 ^ (n - 1) := (mul_pow_sub_one hn.ne' 2).symm
    have hdist : |rnda x n * 2 ^ n - x| ≤ 2 ^ (n - 1) := abs_le.2 ⟨by linarith, by linarith⟩
    linarith

/-- RNDA is off by at most one half of a unit in its last place. -/
theorem two_mul_abs_rnda_sub_le (x : Int) (n : Nat) : 2 * |rnda x n * 2 ^ n - x| ≤ 2 ^ n := by
  rcases le_total 0 x with hx | hx
  · exact two_mul_abs_rnda_sub_le_of_nonneg n hx
  · have hflip := two_mul_abs_rnda_sub_le_of_nonneg n (neg_nonneg.2 hx)
    rwa [rnda_neg, neg_mul, ← neg_sub', abs_neg] at hflip

/-! ### The two rounding modes (R121, R122) -/

section
variable {f : Nat} {acc m s : Int}

theorem roundSingle_of_le (h : s ≤ f) : roundSingle f acc m s = rnda (acc * m) (f - s).toNat :=
  if_pos (by omega)

theorem roundSingle_of_lt (h : f < s) : roundSingle f acc m s = acc * m * 2 ^ (s - f).toNat := by
  rw [← neg_sub (f : Int) s]
  exact if_neg (by omega)

end

/-- Single rounding of a left shift, whether or not it exceeds F, is one RNDA of the shifted product. -/
theorem roundSingle_of_nonneg {f : Nat} {acc m s : Int} (h : 0 ≤ s) :
    roundSingle f acc m s = rnda (acc * m * 2 ^ s.toNat) f := by
  rcases le_or_gt s f with hs | hs
  · rw [roundSingle_of_le hs, rnda_mul_pow _ (by omega), show f - s.toNat = ((f : Int) - s).toNat by omega]
  · rw [roundSingle_of_lt hs, show s.toNat = (s - f).toNat + f by omega, pow_add, ← mul_assoc,
      rnda_mul_pow _ le_rfl, Nat.sub_self, rnda_zero_bits]

/-- Double rounding of a left shift rounds only once. -/
theorem roundDouble_of_nonneg {f : Nat} {acc m s : Int} (h : 0 ≤ s) :
    roundDouble f acc m s = rnda (acc * m * 2 ^ s.toNat) f := by
  rw [roundDouble, show (-s).toNat = 0 by omega, rnda_zero_bits, mul_right_comm]

/-- R125 item 6, for every F and every left shift. -/
theorem roundDouble_eq_roundSingle {f : Nat} {acc m s : Int} (h : 0 ≤ s) :
    roundDouble f acc m s = roundSingle f acc m s := by
  rw [roundDouble_of_nonneg h, roundSingle_of_nonneg h]

/-- Settles O28: on a left shift both modes are one RNDA of the same product; the example by evaluation. -/
theorem roundingModesAgreeForLeftShifts : Obligations.RoundingModesAgreeForLeftShifts :=
  ⟨fun _ _ _ _ h _ => roundDouble_eq_roundSingle h, by decide, by decide⟩

/-- Settles O30: 31 bits are shifted in, one by `s` and 30 by `m`, and the same 31 are rounded away. -/
theorem unitScaleIsExact : Obligations.UnitScaleIsExact := by
  intro acc
  have hexact : roundSingle 31 acc (2 ^ 30) 1 = acc := by
    rw [roundSingle_of_le (by decide)]
    exact (rnda_mul_pow acc le_rfl).trans (rnda_zero_bits acc)
  exact ⟨(roundDouble_eq_roundSingle (by decide)).trans hexact, hexact⟩

/-! ### Laws of the rounded value, in both modes (R125) -/

theorem roundDouble_neg (f : Nat) (acc m s : Int) : roundDouble f (-acc) m s = -roundDouble f acc m s := by
  simp only [roundDouble, neg_mul, rnda_neg]

theorem roundSingle_neg (f : Nat) (acc m s : Int) : roundSingle f (-acc) m s = -roundSingle f acc m s := by
  rcases le_or_gt s f with hs | hs
  · rw [roundSingle_of_le hs, roundSingle_of_le hs, neg_mul, rnda_neg]
  · rw [roundSingle_of_lt hs, roundSingle_of_lt hs, neg_mul, neg_mul]

/-- Settles O27, mode by mode. -/
theorem roundedScaleIsOdd : Obligations.RoundedScaleIsOdd := by
  intro p acc m s
  unfold roundScaled
  cases p.rmode with
  | double => exact roundDouble_neg _ acc m s
  | single => exact roundSingle_neg _ acc m s

theorem roundDouble_mono (f : Nat) {acc acc' m : Int} (s : Int) (hm : 0 ≤ m) (h : acc ≤ acc') :
    roundDouble f acc m s ≤ roundDouble f acc' m s := by
  unfold roundDouble
  refine rnda_mono _ (rnda_mono f ?_)
  gcongr

theorem roundSingle_mono (f : Nat) {acc acc' m : Int} (s : Int) (hm : 0 ≤ m) (h : acc ≤ acc') :
    roundSingle f acc m s ≤ roundSingle f acc' m s := by
  have hprod : acc * m ≤ acc' * m := mul_le_mul_of_nonneg_right h hm
  rcases le_or_gt s f with hs | hs
  · rw [roundSingle_of_le hs, roundSingle_of_le hs]
    exact rnda_mono _ hprod
  · rw [roundSingle_of_lt hs, roundSingle_of_lt hs]
    gcongr

theorem roundScaled_mono (p : Params) {acc acc' m : Int} (s : Int) (hm : 0 ≤ m) (h : acc ≤ acc') :
    roundScaled p acc m s ≤ roundScaled p acc' m s := by
  unfold roundScaled
  cases p.rmode with
  | double => exact roundDouble_mono _ s hm h
  | single => exact roundSingle_mono _ s hm h

@[simp] theorem roundScaled_zero_acc (p : Params) (m s : Int) : roundScaled p 0 m s = 0 := by
  have hodd := roundedScaleIsOdd p 0 m s
  rw [neg_zero] at hodd
  omega

@[simp] theorem roundScaled_zero_mult (p : Params) (acc s : Int) : roundScaled p acc 0 s = 0 := by
  unfold roundScaled
  cases p.rmode with
  | double => simp [roundDouble]
  | single => simp [roundSingle]

/-! ### The saturation (R123) -/

theorem outMin_le_outMax (fmt : OutFmt) : outMin fmt ≤ outMax fmt := by cases fmt <;> decide

theorem clamp_mono {v w : Int} (lo hi : Int) (h : v ≤ w) : clamp v lo hi ≤ clamp w lo hi :=
  min_le_min le_rfl (max_le_max le_rfl h)

theorem clamp_of_mem {v lo hi : Int} (hlo : lo ≤ v) (hhi : v ≤ hi) : clamp v lo hi = v := by
  rw [clamp, max_eq_right hlo, min_eq_right hhi]

theorem outMin_le_rescale (p : Params) (acc m s z : Int) (fmt : OutFmt) : outMin fmt ≤ rescale p acc m s z fmt :=
  le_min (outMin_le_outMax fmt) (le_max_left _ _)

theorem rescale_le_outMax (p : Params) (acc m s z : Int) (fmt : OutFmt) : rescale p acc m s z fmt ≤ outMax fmt :=
  min_le_left _ _

/-- Settles O25: the clamp bounds the result, and neither rounding, zero-point nor clamp turns the order around. -/
theorem rescaleSaturatesAndIsMonotone : Obligations.RescaleSaturatesAndIsMonotone := fun p acc _ m s z fmt =>
  ⟨⟨outMin_le_rescale p acc m s z fmt, rescale_le_outMax p acc m s z fmt⟩, fun hm h =>
    clamp_mono _ _ (add_le_add_left (roundScaled_mono p s hm h) z)⟩

/-- Settles O26: the rounded value is 0, and a zero-point in range is not clamped. -/
theorem rescaleOfZeroIsTheZeroPoint : Obligations.RescaleOfZeroIsTheZeroPoint := by
  intro p acc m s z fmt hlo hhi
  simp only [rescale, roundScaled_zero_acc, roundScaled_zero_mult, zero_add, clamp_of_mem hlo hhi, and_self]

theorem roundScaled_double {p : Params} (h : p.rmode = .double) (acc m s : Int) :
    roundScaled p acc m s = roundDouble p.frac.toNat acc m s := by rw [roundScaled, h]

theorem roundScaled_single {p : Params} (h : p.rmode = .single) (acc m s : Int) :
    roundScaled p acc m s = roundSingle p.frac.toNat acc m s := by rw [roundScaled, h]

/-- Settles O24, from the equation of each mode. -/
theorem rescaleFollowsTheBuildsRoundingMode : Obligations.RescaleFollowsTheBuildsRoundingMode := by
  intro p acc m s z fmt
  refine ⟨fun hd => ?_, fun hs hle => ?_, fun hs hlt => ?_⟩
  · have hleft : (max s 0).toNat = s.toNat := by omega
    have hright : (max (-s) 0).toNat = (-s).toNat := by omega
    rw [rescale, roundScaled_double hd, roundDouble, hleft, hright]
  · rw [rescale, roundScaled_single hs, roundSingle_of_le hle]
  · rw [rescale, roundScaled_single hs, roundSingle_of_lt hlt]

/-! ### The rounding error (R125 item 7) -/

/-- Single rounding, cleared of the denominator: exact for `s > F`, else off by half a unit of its one RNDA. -/
theorem roundSingle_error {f : Nat} {acc m s : Int} (hs : -31 ≤ s) :
    2 * |roundSingle f acc m s * 2 ^ (f + 31) - acc * m * 2 ^ (s + 31).toNat| ≤ 2 ^ (f + 31) := by
  rcases le_or_gt s f with hle | hlt
  · have herr := two_mul_abs_rnda_sub_le (acc * m) (f - s).toNat
    rw [roundSingle_of_le hle, show f + 31 = (f - s).toNat + (s + 31).toNat by omega, pow_add, ← mul_assoc, ← sub_mul,
      abs_mul, abs_of_pos (show (0 : Int) < 2 ^ (s + 31).toNat by positivity), ← mul_assoc]
    gcongr
  · rw [roundSingle_of_lt hlt, mul_assoc, ← pow_add, show (s - f).toNat + (f + 31) = (s + 31).toNat by omega, sub_self,
      abs_zero, mul_zero]
    positivity

/-- Two roundings in a row: half a unit of the second, and half a unit of the first in the unit of the second. -/
theorem rnda_rnda_error (x : Int) (f r : Nat) :
    2 * |rnda (rnda x f) r * (2 ^ r * 2 ^ f) - x| ≤ (2 ^ r + 1) * 2 ^ f := by
  have hfirst := two_mul_abs_rnda_sub_le x f
  have hsecond := two_mul_abs_rnda_sub_le (rnda x f) r
  calc 2 * |rnda (rnda x f) r * (2 ^ r * 2 ^ f) - x|
      = 2 * |(rnda (rnda x f) r * 2 ^ r - rnda x f) * 2 ^ f + (rnda x f * 2 ^ f - x)| := by ring_nf
    _ ≤ 2 * (|rnda (rnda x f) r * 2 ^ r - rnda x f| * 2 ^ f + |rnda x f * 2 ^ f - x|) := by
      gcongr
      refine (abs_add_le _ _).trans_eq ?_
      rw [abs_mul, abs_of_pos (show (0 : Int) < 2 ^ f by positivity)]
    _ = 2 * |rnda (rnda x f) r * 2 ^ r - rnda x f| * 2 ^ f + 2 * |rnda x f * 2 ^ f - x| := by ring
    _ ≤ 2 ^ r * 2 ^ f + 2 ^ f := by gcongr
    _ = (2 ^ r + 1) * 2 ^ f := by ring

/-- Double rounding, cleared of the denominator: with `R = max(-s, 0)`, the error of its two RNDAs `31 - R` bits up. -/
theorem roundDouble_error {f : Nat} {acc m s : Int} (hs : -31 ≤ s) :
    2 ^ ((-s).toNat + 1) * |roundDouble f acc m s * 2 ^ (f + 31) - acc * m * 2 ^ (s + 31).toNat|
      ≤ (2 ^ (-s).toNat + 1) * 2 ^ (f + 31) := by
  obtain ⟨k, hk⟩ : ∃ k, (-s).toNat + k = 31 := ⟨31 - (-s).toNat, by omega⟩
  have hunit : (2 : Int) ^ (f + 31) = 2 ^ (-s).toNat * 2 ^ f * 2 ^ k := by rw [← hk]; ring
  have hexact : acc * m * 2 ^ (s + 31).toNat = acc * 2 ^ s.toNat * m * 2 ^ k := by
    rw [show (s + 31).toNat = s.toNat + k by omega]; ring
  have herr := rnda_rnda_error (acc * 2 ^ s.toNat * m) f (-s).toNat
  have hscaled := mul_le_mul_of_nonneg_left herr (show (0 : Int) ≤ 2 ^ (-s).toNat * 2 ^ k by positivity)
  rw [roundDouble, hunit, hexact, ← mul_assoc, ← sub_mul, abs_mul, abs_of_pos (show (0 : Int) < 2 ^ k by positivity),
    pow_succ]
  linarith

/-- Settles O29, from the error of each mode. -/
theorem roundingErrorIsBounded : Obligations.RoundingErrorIsBounded := by
  intro f acc m s hs _
  have hsingle := roundSingle_error (f := f.toNat) (acc := acc) (m := m) hs
  have hdouble := roundDouble_error (f := f.toNat) (acc := acc) (m := m) hs
  constructor
  · zify; exact hsingle
  · zify; exact hdouble

end Sys2Proof.Machine
end

section
/-! PROOFS. RQ and RQPC (spec/40_rescale.md R126, R127): both are one scalar rescale whose multiplier and shift come from somewhere, so R124's checks and the result are settled once for it. -/

namespace Sys2Proof.Machine

open Sys2Proof.Statement

/-! ### The checks of R124 -/

section
variable {m s z : Int} {f : BitVec 3}

theorem checkQ_of_reserved (h : outFmtOf f = none) : checkQ m s z f = .error .param := by rw [checkQ, h]

theorem checkQ_of_fmt {fmt : OutFmt} (h : outFmtOf f = some fmt) :
    checkQ m s z f =
      if m < 0 then .error .param
      else if shiftBad s then .error .shift
      else if zpBad z fmt then .error .zp
      else .ok fmt := by rw [checkQ, h]

end

theorem shiftBad_eq_true {s : Int} : shiftBad s = true ↔ s < -31 ∨ 31 < s := decide_eq_true_iff

theorem zpBad_eq_true {z : Int} {fmt : OutFmt} : zpBad z fmt = true ↔ z < outMin fmt ∨ outMax fmt < z :=
  decide_eq_true_iff

/-! ### The 64-bit RESULT (R28) -/

/-- RESULT_HI and RESULT_LO together are the 64 bits of the value. -/
theorem setResult_append (s : State) (v : Int) :
    (s.setResult v).resultHi ++ (s.setResult v).resultLo = BitVec.ofInt 64 v := by
  rw [setResult_resultHi, setResult_resultLo]
  exact (BitVec.extractLsb'_append_extractLsb'_eq_extractLsb' rfl).trans BitVec.extractLsb'_eq_self

/-- A value of the format's range fits RESULT. -/
theorem toInt_ofInt_rescale (p : Params) (acc m s z : Int) (fmt : OutFmt) :
    (BitVec.ofInt 64 (rescale p acc m s z fmt)).toInt = rescale p acc m s z fmt := by
  have hlo : -2147483648 ≤ outMin fmt := by cases fmt <;> decide
  have hhi : outMax fmt ≤ 2147483647 := by cases fmt <;> decide
  have hmin := outMin_le_rescale p acc m s z fmt
  have hmax := rescale_le_outMax p acc m s z fmt
  rw [BitVec.toInt_ofInt]
  exact Int.bmod_eq_of_le (by omega) (by omega)

/-! ### The two commands -/

section
variable {m sh : Word} {s : State}

theorem scalarRescale_of_error {e : ErrCode} (a : AccWidth)
    (h : checkQ m.toInt sh.toInt s.regs.qzp.toInt s.regs.qfmt = .error e) : scalarRescale m sh a s = s.fail e := by
  simp only [scalarRescale, h]

theorem scalarRescale_of_ok {fmt : OutFmt} (a : AccWidth)
    (h : checkQ m.toInt sh.toInt s.regs.qzp.toInt s.regs.qfmt = .ok fmt) :
    scalarRescale m sh a s =
      (s.setResult (rescale s.cfg (accOperand a s.regs) m.toInt sh.toInt s.regs.qzp.toInt fmt)).succeed := by
  simp only [scalarRescale, h]

/-- A command that is a scalar rescale of ACC does what R126 says, by R124's checks in their order. -/
theorem scalarRescaleSpec_of_exec {i : Instr} {a : AccWidth} (h : exec i s = .next (scalarRescale m sh a s)) :
    scalarRescaleSpec i (accumulator a s.regs) m.toInt sh.toInt s := by
  have fails (e : ErrCode) (he : checkQ m.toInt sh.toInt s.regs.qzp.toInt s.regs.qfmt = .error e) :
      exec i s = .next (failed s (errNumber e)) := h.trans (congrArg _ (scalarRescale_of_error a he))
  refine ⟨fun hf => fails .param (checkQ_of_reserved hf), fun fmt hf => ?_⟩
  have hcheck := checkQ_of_fmt (m := m.toInt) (s := sh.toInt) (z := s.regs.qzp.toInt) hf
  refine ⟨fun hm => fails .param ?_, fun hm hs => fails .shift ?_, fun hm hs hs' hz => fails .zp ?_,
    fun hm hs hs' hz hz' => ?_⟩
  · rw [hcheck, if_pos hm]
  · rw [hcheck, if_neg (not_lt.2 hm), if_pos (shiftBad_eq_true.2 hs)]
  · simp only [hcheck, if_neg (not_lt.2 hm), shiftBad_eq_false.2 ⟨hs, hs'⟩, zpBad_eq_true.2 hz, Bool.false_eq_true,
      if_false, if_true]
  · have hok : checkQ m.toInt sh.toInt s.regs.qzp.toInt s.regs.qfmt = .ok fmt := by
      simp only [hcheck, if_neg (not_lt.2 hm), shiftBad_eq_false.2 ⟨hs, hs'⟩, zpBad_eq_false.2 ⟨hz, hz'⟩,
        Bool.false_eq_true, if_false]
    exact ⟨_, _, h.trans (congrArg _ (scalarRescale_of_ok a hok)),
      (congrArg BitVec.toInt (setResult_append s _)).trans (toInt_ofInt_rescale _ _ _ _ _ _)⟩

end

/-- Settles O31: RQ is the scalar rescale with QMULT and QSHIFT. -/
theorem rqRescalesTheAccumulatorOrFails : Obligations.RqRescalesTheAccumulatorOrFails :=
  ⟨encodedBy_of_row 1 (fun _ => rfl) fun _ => rfl, fun _ _ => scalarRescaleSpec_of_exec rfl⟩

theorem exec_rqpc_of_le {ch : Nat} {s : State} (a : AccWidth) (h : s.cfg.nchMax ≤ ch) :
    exec (.rqpc ch a) s = .next (s.fail .param) := by rw [exec, execRqpc, if_pos h]

theorem exec_rqpc_of_lt {ch : Nat} {s : State} (a : AccWidth) (h : ch < s.cfg.nchMax) :
    exec (.rqpc ch a) s = .next (scalarRescale (pcMultAt s ch) (pcShiftAt s ch) a s) := by
  rw [exec, execRqpc, if_neg (not_le.2 h)]

/-- Settles O32: in range, RQPC is the scalar rescale with the channel's entry. -/
theorem rqpcRescalesWithTheChannelsEntryOrFails : Obligations.RqpcRescalesWithTheChannelsEntryOrFails :=
  ⟨encodedBy_of_row 2 (fun _ => rfl) fun _ => rfl, fun _ a _ =>
    ⟨exec_rqpc_of_le a, fun h => scalarRescaleSpec_of_exec (exec_rqpc_of_lt a h)⟩⟩

/-- `s` with other per-tensor parameters. -/
def State.withScale (s : State) (m sh : Word) : State := { s with regs := { s.regs with qmult := m, qshift := sh } }

/-- A scalar rescale reads the multiplier and shift it is given, not the registers. -/
theorem scalarRescale_withScale (m' sh' m sh : Word) (a : AccWidth) (s : State) :
    scalarRescale m' sh' a (s.withScale m sh) = (scalarRescale m' sh' a s).withScale m sh := by
  have hacc : accOperand a (s.withScale m sh).regs = accOperand a s.regs := by cases a <;> rfl
  cases hq : checkQ m'.toInt sh'.toInt s.regs.qzp.toInt s.regs.qfmt with
  | error e =>
    rw [scalarRescale_of_error a hq, scalarRescale_of_error (s := s.withScale m sh) a hq]
    rfl
  | ok fmt =>
    rw [scalarRescale_of_ok a hq, scalarRescale_of_ok (s := s.withScale m sh) a hq, hacc]
    rfl

/-- Settles O33: neither the check of CH nor the scalar rescale with `pc_tab[CH]` reads QMULT or QSHIFT. -/
theorem rqpcIgnoresThePerTensorRegisters : Obligations.RqpcIgnoresThePerTensorRegisters := by
  intro ch a s t m sh h
  change exec (.rqpc ch a) (s.withScale m sh) = .next (t.withScale m sh)
  rcases le_or_gt s.cfg.nchMax ch with hle | hlt
  · rw [exec_rqpc_of_le a hle] at h
    cases h
    exact exec_rqpc_of_le a hle
  · rw [exec_rqpc_of_lt a hlt] at h
    cases h
    rw [← scalarRescale_withScale]
    exact exec_rqpc_of_lt a hlt

end Sys2Proof.Machine
end

section
/-! PROOFS. RQM (spec/40_rescale.md R128): its checks one by one in their order, the chain of memories of a completed RQM, and what is left of memory outside the outputs and in them. -/

namespace Sys2Proof.Machine

open Sys2Proof.Statement

/-! ### The checks in their order -/

theorem check_eq_some {p : Prop} [Decidable p] {e e' : ErrCode} {rest : Option ErrCode} :
    (if p then some e else rest) = some e' ↔ p ∧ e = e' ∨ ¬p ∧ rest = some e' := by split <;> simp [*]

/-- The shift check is the last of those of multipliers and shifts: it fails when all before it pass. -/
theorem rqmCheckScale_eq_shift {perch : Bool} {s : State} :
    rqmCheckScale perch s = some .shift ↔ rqmChannels perch s ∧ rqmMults perch s ∧ ¬rqmShifts perch s := by
  cases perch with
  | false => simp [rqmCheckScale, check_eq_some, rqmChannels, rqmMults, rqmShifts, ← shiftBad_eq_false]
  | true =>
    simp [rqmCheckScale, check_eq_some, rqmChannels, rqmMults, rqmShifts, ← shiftBad_eq_false,
      rqmChannelsBad_eq_false, someBelow_iff, rqmMult_eq, rqmShift_eq]

theorem rqmCheckScale_eq_param {perch : Bool} {s : State} (h : ¬(rqmChannels perch s ∧ rqmMults perch s)) :
    rqmCheckScale perch s = some .param := by
  cases hc : rqmCheckScale perch s with
  | none =>
    obtain ⟨hch, hmult, -⟩ := rqmCheckScale_eq_none.1 hc
    exact absurd ⟨hch, hmult⟩ h
  | some e =>
    rcases rqmCheckScale_error hc with rfl | rfl
    · rfl
    · obtain ⟨hch, hmult, -⟩ := rqmCheckScale_eq_shift.1 hc
      exact absurd ⟨hch, hmult⟩ h

section
variable {perch : Bool} {a : AccWidth} {fmt : OutFmt} {s : State}

theorem rqmCheck_of_reserved (hf : outFmtOf s.regs.qfmt = none) : rqmCheck perch a s = .error .param := by
  rw [rqmCheck, hf]

theorem rqmCheck_of_null (hf : outFmtOf s.regs.qfmt = some fmt) (hp : ¬rqmPointers s.regs) :
    rqmCheck perch a s = .error .null := by
  have hnull : s.regs.rqSrc = 0 ∨ s.regs.rqDst = 0 := by
    simpa only [rqmPointers, not_and_or, not_not] using hp
  simp only [rqmCheck, hf, hnull, if_true]

theorem not_null_of_pointers {g : Regs} (h : rqmPointers g) : ¬(g.rqSrc = 0 ∨ g.rqDst = 0) := not_or.2 h

theorem rqmCheck_of_misaligned (hf : outFmtOf s.regs.qfmt = some fmt) (hp : rqmPointers s.regs)
    (ha : ¬rqmAligned a fmt s.regs) : rqmCheck perch a s = .error .align := by
  rw [← rqmMisaligned_eq_false, Bool.not_eq_false] at ha
  simp only [rqmCheck, hf, not_null_of_pointers hp, ha, if_false, if_true]

/-- Once bases and strides are aligned, a failing check of multipliers and shifts gives the code. -/
theorem rqmCheck_of_scale {e : ErrCode} (hf : outFmtOf s.regs.qfmt = some fmt) (hp : rqmPointers s.regs)
    (ha : rqmAligned a fmt s.regs) (he : rqmCheckScale perch s = some e) : rqmCheck perch a s = .error e := by
  simp only [rqmCheck, hf, not_null_of_pointers hp, rqmMisaligned_eq_false.2 ha, he, if_false, Bool.false_eq_true]

theorem rqmCheck_of_zp (hf : outFmtOf s.regs.qfmt = some fmt) (hp : rqmPointers s.regs) (ha : rqmAligned a fmt s.regs)
    (hc : rqmCheckScale perch s = none) (hz : ¬zeroPoint fmt s) : rqmCheck perch a s = .error .zp := by
  rw [zeroPoint, ← zpBad_eq_false, Bool.not_eq_false] at hz
  simp only [rqmCheck, hf, not_null_of_pointers hp, rqmMisaligned_eq_false.2 ha, hc, hz, if_false, if_true,
    Bool.false_eq_true]

/-- An RQM that passes its checks is ready: were one of them to fail, its code would stand in the way. -/
theorem rqmReady_of_check (h : rqmCheck perch a s = .ok fmt) : rqmReady perch a fmt s := by
  have passes {e : ErrCode} (he : rqmCheck perch a s = .error e) : False := by rw [h] at he; cases he
  cases hf : outFmtOf s.regs.qfmt with
  | none => exact (passes (rqmCheck_of_reserved hf)).elim
  | some fmt' =>
    have hp : rqmPointers s.regs := by_contra fun hp => passes (rqmCheck_of_null hf hp)
    have ha : rqmAligned a fmt' s.regs := by_contra fun ha => passes (rqmCheck_of_misaligned hf hp ha)
    have hc : rqmCheckScale perch s = none :=
      Option.eq_none_iff_forall_ne_some.2 fun e he => passes (rqmCheck_of_scale hf hp ha he)
    have hz : zeroPoint fmt' s := by_contra fun hz => passes (rqmCheck_of_zp hf hp ha hc hz)
    obtain ⟨hch, hmult, hshift⟩ := rqmCheckScale_eq_none.1 hc
    have hready : rqmReady perch a fmt' s := ⟨hf, hp, ha, hch, hmult, hshift, hz⟩
    obtain rfl : fmt' = fmt := Except.ok.inj ((rqmCheck_of_ready hready).symm.trans h)
    exact hready

/-- A failing check is all that an RQM does. -/
theorem exec_rqm_of_check {e : ErrCode} (h : rqmCheck perch a s = .error e) :
    exec (.rqm perch a) s = .next (failed s (errNumber e)) := by
  simp only [exec, execRqm, h]
  rfl

end

/-! ### Addresses and the chain of memories -/

theorem wrap32_natCast (n : Nat) : wrap32 n = n % 2 ^ 32 := by unfold wrap32; omega

theorem rqmSrcAddr_eq (g : Regs) (i : Nat) : rqmSrcAddr g i = (g.rqSrc.toNat + i * g.rqSstr.toNat) % 2 ^ 32 := by
  rw [← wrap32_natCast, rqmSrcAddr]
  push_cast
  rfl

theorem rqmDstAddr_eq (g : Regs) (i : Nat) : rqmDstAddr g i = (g.rqDst.toNat + i * g.rqDstr.toNat) % 2 ^ 32 := by
  rw [← wrap32_natCast, rqmDstAddr]
  push_cast
  rfl

theorem rqmMemory_succ (perch : Bool) (a : AccWidth) (fmt : OutFmt) (s : State) (i : Nat) :
    rqmMemory perch a fmt s (i + 1) =
      memWrite (rqmMemory perch a fmt s i) (rqmDstAddr s.regs i) (outBytes fmt)
        (elementOutput perch a fmt s (rqmMemory perch a fmt s i) i) := by
  rw [rqmMemory, rqmOutput_eq]

/-- Settles O34: the checks in their order, then the chain of memories that the elements leave. -/
theorem rqmRescalesMemoryInElementOrderOrFails : Obligations.RqmRescalesMemoryInElementOrderOrFails := by
  refine ⟨encodedBy_of_row 3 (fun _ => rfl) fun _ => rfl, fun g i => ⟨rqmSrcAddr_eq g i, rqmDstAddr_eq g i⟩,
    fun perch a s => ⟨fun hf => exec_rqm_of_check (e := .param) (rqmCheck_of_reserved hf), fun fmt hf => ?_⟩⟩
  refine ⟨fun hp => exec_rqm_of_check (e := .null) (rqmCheck_of_null hf hp),
    fun hp ha => exec_rqm_of_check (e := .align) (rqmCheck_of_misaligned hf hp ha),
    fun hp ha hs => exec_rqm_of_check (e := .param) (rqmCheck_of_scale hf hp ha (rqmCheckScale_eq_param hs)),
    fun hp ha hch hmult hs => ?_, fun hp ha hch hmult hs hz => ?_, fun hready ho => ?_⟩
  · exact exec_rqm_of_check (e := .shift) (rqmCheck_of_scale hf hp ha (rqmCheckScale_eq_shift.2 ⟨hch, hmult, hs⟩))
  · exact exec_rqm_of_check (e := .zp) (rqmCheck_of_zp hf hp ha (rqmCheckScale_eq_none.2 ⟨hch, hmult, hs⟩) hz)
  · exact ⟨rqmMemory perch a fmt s, rfl, fun i _ => rqmMemory_succ perch a fmt s i, exec_rqm_of_ordinary hready ho⟩

/-! ### In and outside the outputs -/

/-- Settles O35: no element writes into another's accumulator, and, all outputs being aligned words at different addresses, none into another's output. -/
theorem rqmStoresEveryRescaledAccumulator : Obligations.RqmStoresEveryRescaledAccumulator := by
  intro perch a fmt s hm hready ho hacc hdistinct
  refine ⟨_, exec_rqm_of_ordinary hready ho, rfl, rfl, fun i hi => ?_⟩
  obtain ⟨-, -, ha, -⟩ := hready
  exact memRead_rqmMemory_output hm ha hi (fun j hj => hacc j i (by omega) hi) fun j hij hj =>
    apart_of_aligned (rqmDstAddr_aligned ha j) (rqmDstAddr_aligned ha i) (hdistinct j i hj hi (by omega))

/-- A byte apart from every output is as before the command. -/
theorem memRead1_rqmMemory_of_apart {perch : Bool} {a : AccWidth} {fmt : OutFmt} {s : State} {n b : Nat}
    (ha : rqmAligned a fmt s.regs) (h : ∀ i, i < n → apart b 1 (rqmDstAddr s.regs i) (outBytes fmt)) :
    memRead1 (rqmMemory perch a fmt s n) b = memRead1 s.mem b := by
  refine rqmMemory_ne (fun i _ => rqmDstAddr_add_le ha i) fun i hi => ?_
  have hi' := h i hi
  unfold apart at hi'
  omega

/-- Settles O36, by the two ways RQM answers: a failing check leaves memory, and passed checks align the outputs, so that none wraps onto another byte. -/
theorem rqmChangesOnlyItsOutputBytes : Obligations.RqmChangesOnlyItsOutputBytes := by
  intro perch a s t h
  rcases execRqm_next h with ⟨e, -, rfl⟩ | ⟨fmt, m, hcheck, hm, rfl⟩
  · exact ⟨rfl, fun _ => rfl, fun _ _ _ _ => rfl⟩
  · obtain ⟨hfmt, -, ha, -⟩ := rqmReady_of_check hcheck
    obtain rfl := rqmElements_ok hm
    refine ⟨rfl, fun hnone => ?_, fun fmt' hf b hb => ?_⟩
    · rw [hfmt] at hnone
      cases hnone
    · obtain rfl : fmt = fmt' := Option.some.inj (hfmt.symm.trans hf)
      exact memRead1_rqmMemory_of_apart ha hb

end Sys2Proof.Machine
end

section
/-! PROOFS. The window's geometry (spec/41_window.md R161) and the ring's elements (spec/00_scope.md R18): a cell is an access or padding, and padding reads back as the pad value. -/

namespace Sys2Proof.Machine

/-! ### Geometry -/

theorem winLines_eq (w : Window) : winLines w = if w.orient = .rows then (w.h : Int) else w.w := by
  unfold winLines; cases w.orient <;> rfl

theorem winPositions_eq (w : Window) : winPositions w = if w.orient = .rows then (w.w : Int) else w.h := by
  unfold winPositions; cases w.orient <;> rfl

/-- The address of a cell, before it is split by the window's orientation, is that of its coordinates (R77). -/
theorem natCast_winAddr (w : Window) (l p : Int) :
    (winAddr w l p : Int) = (w.src.toNat + (winY w l p * w.py.toNat + winX w l p * w.px.toNat)) % 2 ^ 32 := by
  rw [winAddr, natCast_wrap32, add_assoc]

theorem winCoordinates_eq (w : Window) (l p : Int) :
    winY w l p * w.py.toNat + winX w l p * w.px.toNat =
      if w.orient = .rows then l * w.py.toNat + (p - w.padp) * w.px.toNat
      else (p - w.padp) * w.py.toNat + l * w.px.toNat := by
  unfold winY winX; cases w.orient <;> rfl

theorem winReal_iff (w : Window) (l p : Int) :
    winReal w l p = true ↔ 0 ≤ l ∧ l < winLines w ∧ 0 ≤ p - w.padp ∧ p - w.padp < winPositions w :=
  decide_eq_true_iff

/-! ### Cells -/

section
variable {c : Params} {m : Memory} {w : Window} {l p : Int}

/-- A real cell on ordinary memory is the element's bytes there. -/
theorem loadCell_of_real (hr : winReal w l p = true) (h : busStop c (winAddr w l p) (elemBytes w.elem) = none) :
    loadCell c m w l p = .ok (BitVec.ofNat 16 (memRead m (winAddr w l p) (elemBytes w.elem))) := by
  simp only [loadCell, hr, if_true, busRead_ok h]

/-- Any other cell is padding, whatever memory and the platform are. -/
theorem loadCell_of_padding (hr : winReal w l p = false) : loadCell c m w l p = .ok (elemBits w.elem w.padv) := by
  simp only [loadCell, hr, Bool.false_eq_true, if_false]

/-- A real cell that loads was on ordinary memory. -/
theorem busStop_of_loadCell {b : BitVec 16} (hr : winReal w l p = true) (h : loadCell c m w l p = .ok b) :
    busStop c (winAddr w l p) (elemBytes w.elem) = none :=
  Option.eq_none_iff_forall_ne_some.2 fun _ hst => by
    rw [loadCell_of_stop hr hst] at h
    cases h

end

/-- Settles O39: the geometry orientation by orientation, and the two kinds of cell. -/
theorem windowCellIsSourceElementOrPadding : Obligations.WindowCellIsSourceElementOrPadding := by
  intro c m w l p
  refine ⟨?_, ?_, loadCell_of_real, loadCell_of_padding⟩
  · rw [winReal_iff, winLines_eq, winPositions_eq]
  · rw [natCast_winAddr, winCoordinates_eq]

/-! ### Elements -/

/-- An element is in the range of its format (R18). -/
theorem elemExt_mem_range (e : Elem) (b : BitVec 16) : elemLo e ≤ elemExt e b ∧ elemExt e b ≤ elemHi e := by
  cases e with
  | s8 => exact ⟨BitVec.le_toInt _, Int.le_of_lt_add_one (BitVec.toInt_lt (x := b.setWidth 8))⟩
  | u8 => exact ⟨Int.natCast_nonneg _, by simp only [elemExt, elemHi]; omega⟩
  | s16 => exact ⟨BitVec.le_toInt _, Int.le_of_lt_add_one (BitVec.toInt_lt (x := b))⟩
  | u16 => exact ⟨Int.natCast_nonneg _, by simp only [elemExt, elemHi]; omega⟩

/-- An element fits the 64-bit RESULT. -/
theorem toInt_ofInt_elemExt (e : Elem) (b : BitVec 16) : (BitVec.ofInt 64 (elemExt e b)).toInt = elemExt e b := by
  have hlo : -32768 ≤ elemLo e := by cases e <;> decide
  have hhi : elemHi e ≤ 65535 := by cases e <;> decide
  obtain ⟨hmin, hmax⟩ := elemExt_mem_range e b
  rw [BitVec.toInt_ofInt]
  exact Int.bmod_eq_of_le (by omega) (by omega)

/-- A value in the format's range reads back from its bit pattern. -/
theorem elemExt_elemBits {e : Elem} {v : Int} (hlo : elemLo e ≤ v) (hhi : v ≤ elemHi e) :
    elemExt e (elemBits e v) = v := by
  cases e
  all_goals
    simp only [elemLo, elemHi] at hlo hhi
    simp only [elemExt, elemBits, elemBytes, BitVec.toInt_setWidth, BitVec.toNat_setWidth, BitVec.toNat_ofInt,
      BitVec.toInt_ofInt, Int.bmod_def]
    omega

end Sys2Proof.Machine
end

section
/-! PROOFS. The window commands (spec/41_window.md R160 to R167): the checks of each in their order, and what each does once they pass. -/

namespace Sys2Proof.Machine

open Sys2Proof.Statement

/-! ### WINIT -/

/-- Base and pitches are multiples of the element width (R74, R160). -/
abbrev winitAligned (g : Regs) : Prop :=
  g.wSrc.toNat % elemBytes (elemOf g.wFmt) = 0 ∧ g.wPitchY.toNat % elemBytes (elemOf g.wFmt) = 0 ∧
  g.wPitchX.toNat % elemBytes (elemOf g.wFmt) = 0

/-- Dimensions and paddings are in range (R160). -/
abbrev winitDims (g : Regs) : Prop :=
  1 ≤ g.wSrcH.toInt ∧ g.wSrcH.toInt ≤ 65535 ∧ 1 ≤ g.wSrcW.toInt ∧ g.wSrcW.toInt ≤ 65535 ∧
  0 ≤ g.wPadL.toInt ∧ g.wPadL.toInt ≤ 65535 ∧ 0 ≤ g.wPadP.toInt ∧ g.wPadP.toInt ≤ 65535

/-- The pad value is in the element range (R160). -/
abbrev winitPadOk (g : Regs) : Prop :=
  elemLo (elemOf g.wFmt) ≤ g.wPadv.toInt ∧ g.wPadv.toInt ≤ elemHi (elemOf g.wFmt)

/-- The ring is not empty and fits (R160). -/
abbrev winitSizeOk (c : Params) (g : Regs) : Prop :=
  1 ≤ g.wCap.toInt ∧ 1 ≤ g.wLen.toInt ∧ g.wCap.toInt ≤ 4096 ∧ g.wLen.toInt ≤ 4096 ∧
  g.wCap.toInt * g.wLen.toInt * elemBytes (elemOf g.wFmt) ≤ c.wbufBytes.toNat

/-- WINIT's checks, each as what it asks for (R160). -/
theorem winitCheck_eq (c : Params) (g : Regs) :
    winitCheck c g =
      if g.wSrc = 0 then some .null
      else if ¬winitAligned g then some .align
      else if ¬winitDims g then some .param
      else if ¬winitPadOk g then some .zp
      else if ¬winitSizeOk c g then some .size
      else none := by
  simp only [winitCheck, not_and_or, not_le, ← ne_eq, Order.lt_one_iff_nonpos]

/-- A failing check is all that a WINIT does. -/
theorem exec_winit_of_check {s : State} {e : ErrCode} (h : winitCheck s.cfg s.regs = some e) :
    exec .winit s = .next (failed s (errNumber e)) := by
  simp only [exec, execWinit, h]
  rfl

theorem exec_winit_of_ready {s : State} (h : winitCheck s.cfg s.regs = none) :
    exec .winit s =
      .next (State.succeed { s with win := winitWindow s.regs, ring := [], ringGen := s.ringGen + 1 }) := by
  simp only [exec, execWinit, h]

theorem orientOf_eq_columns {b : BitVec 3} : orientOf b = .columns ↔ b.getLsbD 0 = true := by
  unfold orientOf
  split
  · exact iff_of_true rfl ‹_›
  · exact iff_of_false nofun ‹_›

/-- Settles O40: the checks in their order; when they pass, the latched dimensions are not negative. -/
theorem winitOpensTheWindowOrFails : Obligations.WinitOpensTheWindowOrFails := by
  refine ⟨encodedBy_of_row 4 (fun _ => rfl) fun _ => rfl, fun s => ?_⟩
  have hcheck := winitCheck_eq s.cfg s.regs
  refine ⟨fun hn => exec_winit_of_check (e := .null) ?_, fun hn ha => exec_winit_of_check (e := .align) ?_,
    fun hn ha hd => exec_winit_of_check (e := .param) ?_, fun hn ha hd hp => exec_winit_of_check (e := .zp) ?_,
    fun hn ha hd hp hs => exec_winit_of_check (e := .size) ?_, fun hn ha hd hp hs => ?_⟩
  · rw [hcheck, if_pos hn]
  · rw [hcheck, if_neg hn, if_pos ha]
  · rw [hcheck, if_neg hn, if_neg (not_not.2 ha), if_pos hd]
  · rw [hcheck, if_neg hn, if_neg (not_not.2 ha), if_neg (not_not.2 hd), if_pos hp]
  · rw [hcheck, if_neg hn, if_neg (not_not.2 ha), if_neg (not_not.2 hd), if_neg (not_not.2 hp), if_pos hs]
  · rw [if_neg hn, if_neg (not_not.2 ha), if_neg (not_not.2 hd), if_neg (not_not.2 hp), if_neg (not_not.2 hs)]
      at hcheck
    obtain ⟨hh, -, hw, -, hpl, -, hpp, -⟩ := hd
    obtain ⟨hcap, hlen, -⟩ := hs
    exact ⟨_, exec_winit_of_ready hcheck, rfl, rfl, rfl, rfl, rfl, Int.toNat_of_nonneg (zero_le_one.trans hh),
      Int.toNat_of_nonneg (zero_le_one.trans hw), Int.toNat_of_nonneg hpl, Int.toNat_of_nonneg hpp,
      Int.toNat_of_nonneg (zero_le_one.trans hlen), Int.toNat_of_nonneg (zero_le_one.trans hcap), rfl,
      orientOf_eq_columns, rfl, rfl, rfl, rfl⟩

/-! ### WADV and WRD: the checks -/

/-- A failing check is all that a WADV does. -/
theorem exec_wadv_of_check {n : Nat} {s : State} {e : ErrCode} (h : wadvCheck n s.win = some e) :
    exec (.wadv n) s = .next (failed s (errNumber e)) := by
  simp only [exec, execWadv, h]
  rfl

/-- A failing check is all that a WRD does. -/
theorem exec_wrd_of_check {row col : Nat} {s : State} {e : ErrCode} (h : wrdCheck row col s.win = some e) :
    exec (.wrd row col) s = .next (failed s (errNumber e)) := by
  simp only [exec, execWrd, h]
  rfl

theorem exec_wadv_of_closed {s : State} (n : Nat) (h : s.win.isOpen = false) :
    exec (.wadv n) s = .next (failed s (-9)) :=
  exec_wadv_of_check (e := .state) (if_pos h)

theorem exec_wrd_of_closed {s : State} (row col : Nat) (h : s.win.isOpen = false) :
    exec (.wrd row col) s = .next (failed s (-9)) :=
  exec_wrd_of_check (e := .state) (if_pos h)

theorem exec_wrd_of_resident {row col : Nat} {s : State} (ho : s.win.isOpen = true) (hr : row < s.win.valid)
    (hc : col < s.win.len) : exec (.wrd row col) s = .next (s.setResult (winElement s row col)).succeed := by
  have hcheck : wrdCheck row col s.win = none := by
    simp only [wrdCheck, check_eq_none, ho, Bool.true_eq_false, not_false_iff, not_or, not_le, hr, hc, and_self]
  simp only [exec, execWrd, hcheck]

/-! ### WADV: the lines -/

theorem exec_wadv_of_loadLines {n : Nat} {s t : State} (hc : wadvCheck n s.win = none) (h : loadLines n s = .ok t) :
    exec (.wadv n) s = .next t.succeed := by
  simp only [exec, execWadv, hc, h]

namespace LinesLoaded

variable {s u : State} {n r p : Nat}

/-- A line not resident before the advance holds its cells, just loaded (R162). -/
theorem ringCell_new (hu : LinesLoaded s u n) (hr : r + evicted s.win n < s.win.valid + n) (hp : p < s.win.len)
    (hnew : s.win.valid ≤ r + evicted s.win n) :
    loadCell s.cfg s.mem s.win (s.win.top + evicted s.win n + r) p =
      .ok (ringCell u ((s.win.head + evicted s.win n + r) % s.win.cap) p) := by
  obtain ⟨line, hline, -, hcells⟩ := hu.new (evicted s.win n + r) (by omega) (by omega) (by omega)
  obtain ⟨b, hb, hload⟩ := hcells p hp
  rw [add_assoc s.win.head, ringCell_of_line hline hb, add_assoc s.win.top]
  exact hload

/-- A line resident before the advance that stays keeps its slot and contents (R164). -/
theorem ringCell_old (hu : LinesLoaded s u n) (hold : r + evicted s.win n < s.win.valid) :
    ringCell u ((s.win.head + evicted s.win n + r) % s.win.cap) p =
      ringCell s ((s.win.head + evicted s.win n + r) % s.win.cap) p := by
  have hgen : u.ringGen = s.ringGen := by rw [hu.frame]
  rw [add_assoc s.win.head]
  exact ringCell_congr (hu.old _ (by omega) (by omega) (by omega)) hgen p

end LinesLoaded

/-- Settles O41: the checks in their order, then `n` loaded lines, of which each resident one is new or old. -/
theorem wadvLoadsNextLinesAndEvictsOldest : Obligations.WadvLoadsNextLinesAndEvictsOldest := by
  refine ⟨encodedBy_of_row 5 (fun _ => rfl) fun _ => rfl, fun n s =>
    ⟨exec_wadv_of_closed n, fun ho hbad => exec_wadv_of_check (e := .param) ?_, fun ho hn hline hh hv hord => ?_⟩⟩
  · simpa [wadvCheck, check_eq_some, ho, or_iff_not_imp_left] using hbad
  · obtain ⟨u, hload⟩ := loadLines_of_ordinary (j := n) hh (LinesLoaded.zero hh hv) (by rwa [zero_add])
    have hu := loadLines_ok hh hv hload
    refine ⟨u.succeed, exec_wadv_of_loadLines (wadvCheck_of_open ho hn hline) hload,
      congrArg State.succeed hu.frame, fun r p hr hp => ?_⟩
    have hlt : r + evicted s.win n < s.win.valid + n := Nat.add_lt_of_lt_sub hr
    exact ⟨hu.ringCell_new hlt hp, hu.ringCell_old⟩

/-! ### WRD and WCLOSE -/

/-- RESULT after WRD is the element. -/
theorem wrd_result (s : State) (row col : Nat) :
    ((s.setResult (winElement s row col)).resultHi ++ (s.setResult (winElement s row col)).resultLo).toInt =
      elemExt s.win.elem (ringCell s ((s.win.head + row) % s.win.cap) col) :=
  (congrArg BitVec.toInt (setResult_append s _)).trans (toInt_ofInt_elemExt _ _)

/-- Settles O42: the checks in their order, else the element, which fits RESULT. -/
theorem wrdReadsAResidentElementOrFails : Obligations.WrdReadsAResidentElementOrFails := by
  refine ⟨encodedBy_of_row 6 (fun _ => rfl) fun _ => rfl, fun row col s =>
    ⟨exec_wrd_of_closed row col, fun ho hbad => exec_wrd_of_check (e := .param) ?_, fun ho hr hc =>
      ⟨_, _, exec_wrd_of_resident ho hr hc, wrd_result s row col⟩⟩⟩
  simp only [wrdCheck, ho, Bool.true_eq_false, if_false, if_pos hbad]

/-- A cell that loads, extended, is the padded input there (R166). -/
theorem elemExt_of_loadCell {s : State} {l p : Int} {b : BitVec 16} (hb : OpenBounds s.cfg s.win)
    (h : loadCell s.cfg s.mem s.win l p = .ok b) : elemExt s.win.elem b = paddedInput s l p := by
  unfold paddedInput
  split
  next hr =>
    rw [loadCell_of_real hr (busStop_of_loadCell hr h)] at h
    rw [Except.ok.inj h]
  next hr =>
    rw [loadCell_of_padding (Bool.eq_false_iff.2 hr)] at h
    rw [← Except.ok.inj h]
    exact elemExt_elemBits hb.padv_range.1 hb.padv_range.2

/-- Settles O43: the ring's element is the cell's, and the cell is the padded input. -/
theorem openWindowShowsThePaddedInput : Obligations.OpenWindowShowsThePaddedInput := by
  intro row col s ho hb hw hr hc
  exact ⟨_, exec_wrd_of_resident ho hr hc, rfl,
    (wrd_result s row col).trans (elemExt_of_loadCell hb (hw row col hr hc))⟩

/-- Settles O45: the views of a closed window are 0, and the window commands find none open. -/
theorem wcloseDiscardsTheWindow : Obligations.WcloseDiscardsTheWindow :=
  ⟨encodedBy_of_row 7 (fun _ => rfl) fun _ => rfl, fun _ =>
    ⟨_, rfl, rfl, winView_of_closed rfl _, winView_of_closed rfl _, winView_of_closed rfl _, winView_of_closed rfl _,
      winView_of_closed rfl _, fun n row col =>
      ⟨exec_wadv_of_closed n rfl, exec_wrd_of_closed row col rfl⟩⟩⟩

end Sys2Proof.Machine
end

section
/-! PROOFS. SIZEQ (spec/41_window.md R170): its checks, the number of output lines from its two inequalities, and that a tile's lines fit the capacity it returns, which WINIT then accepts. -/

namespace Sys2Proof.Machine

open Sys2Proof.Statement

/-! ### The checks -/

/-- The ring of SIZEQ's capacity fits (R170). -/
abbrev sizeqFits (c : Params) (g : Regs) : Prop :=
  1 ≤ g.wLen.toInt ∧ g.wLen.toInt ≤ 4096 ∧ sizeqCap g ≤ 4096 ∧ sizeqBytes g ≤ c.wbufBytes.toNat

/-- SIZEQ's checks, the last as what it asks for (R170). -/
theorem sizeqCheck_eq (c : Params) (g : Regs) :
    sizeqCheck c g =
      if g.szK.toInt < 1 ∨ g.szD.toInt < 1 ∨ g.szT.toInt < 1 ∨ g.szPadded.toInt < 1 then some .param
      else if g.szS.toInt < 1 ∨ g.szK.toInt < g.szS.toInt then some .stride
      else if sizeqOutn g ≤ 0 ∨ ¬sizeqFits c g then some .size
      else none := by
  simp only [sizeqCheck, not_and_or, not_le, Order.lt_one_iff_nonpos, ite_or]

/-- A failing check is all that a SIZEQ does. -/
theorem exec_sizeq_of_check {s : State} {e : ErrCode} (h : sizeqCheck s.cfg s.regs = some e) :
    exec .sizeq s = .next (failed s (errNumber e)) := by
  simp only [exec, execSizeq, h]
  rfl

theorem exec_sizeq_of_passed {s : State} (h : sizeqCheck s.cfg s.regs = none) :
    exec .sizeq s =
      .next (State.succeed
        { s with resultLo := BitVec.ofInt 32 (sizeqBytes s.regs), resultHi := BitVec.ofInt 32 (sizeqCap s.regs) }) := by
  simp only [exec, execSizeq, h]

/-- The two inequalities of a floor fix the number of output lines. -/
theorem sizeqOutn_unique {g : Regs} {outn : Int} (hS : 1 ≤ g.szS.toInt)
    (hlo : (outn - 1) * g.szS.toInt ≤ g.szPadded.toInt - sizeqReach g)
    (hhi : g.szPadded.toInt - sizeqReach g < outn * g.szS.toInt) : sizeqOutn g = outn := by
  have hle : outn - 1 ≤ (g.szPadded.toInt - sizeqReach g) / g.szS.toInt := Int.le_ediv_of_mul_le hS hlo
  have hlt : (g.szPadded.toInt - sizeqReach g) / g.szS.toInt < outn := Int.ediv_lt_of_lt_mul hS hhi
  unfold sizeqOutn s32
  omega

/-- Settles O46: the checks in their order, with the floor for `outn`. -/
theorem sizeqComputesTheRingCapacityOrFails : Obligations.SizeqComputesTheRingCapacityOrFails := by
  refine ⟨encodedBy_of_row 8 (fun _ => rfl) fun _ => rfl, fun s outn => ?_⟩
  have hcheck := sizeqCheck_eq s.cfg s.regs
  refine ⟨fun hbad => exec_sizeq_of_check (e := .param) (hcheck.trans (if_pos hbad)), fun hK hD hT hP => ?_⟩
  rw [if_neg (by omega)] at hcheck
  refine ⟨fun hbad => exec_sizeq_of_check (e := .stride) (hcheck.trans (if_pos hbad)), fun hS hSK hlo hhi => ?_⟩
  rw [if_neg (by omega)] at hcheck
  obtain rfl : sizeqOutn s.regs = outn := sizeqOutn_unique hS hlo hhi
  exact ⟨fun hbad => exec_sizeq_of_check (e := .size) (hcheck.trans (if_pos hbad)), fun hout hfits =>
    exec_sizeq_of_passed (hcheck.trans (if_neg (not_or.2 ⟨not_le.2 hout, not_not.2 hfits⟩)))⟩

/-! ### The capacity -/

/-- What SIZEQ's checks give (R170). -/
structure SizeqPassed (c : Params) (g : Regs) : Prop where
  k_pos : 1 ≤ g.szK.toInt
  d_pos : 1 ≤ g.szD.toInt
  t_pos : 1 ≤ g.szT.toInt
  s_pos : 1 ≤ g.szS.toInt
  s_le : g.szS.toInt ≤ g.szK.toInt
  outn_pos : 1 ≤ sizeqOutn g
  fits : sizeqFits c g

theorem sizeqPassed_of_check {c : Params} {g : Regs} (h : sizeqCheck c g = none) : SizeqPassed c g := by
  simp only [sizeqCheck_eq, check_eq_none, not_or, not_lt, not_le, not_not, and_true] at h
  obtain ⟨⟨hK, hD, hT, -⟩, ⟨hS, hSK⟩, hout, hfits⟩ := h
  exact ⟨hK, hD, hT, hS, hSK, hout, hfits⟩

namespace SizeqPassed

variable {c : Params} {g : Regs}

/-- One step of the kernel reaches no further than the kernel: `S ≤ K ≤ reach`. -/
theorem szS_le_reach (h : SizeqPassed c g) : g.szS.toInt ≤ sizeqReach g := by
  have hK : g.szK.toInt - 1 ≤ (g.szK.toInt - 1) * g.szD.toInt :=
    le_mul_of_one_le_right (sub_nonneg.2 h.k_pos) h.d_pos
  have hSK := h.s_le
  unfold sizeqReach s32
  omega

/-- A tile has at least one line. -/
theorem szS_le_tile (h : SizeqPassed c g) : g.szS.toInt ≤ min g.szT.toInt (sizeqOutn g) * g.szS.toInt :=
  le_mul_of_one_le_left (zero_le_one.trans h.s_pos) (le_min h.t_pos h.outn_pos)

/-- `te·S ≤ cap`, since `S ≤ reach` (R170). -/
theorem tile_le_cap (h : SizeqPassed c g) : min g.szT.toInt (sizeqOutn g) * g.szS.toInt ≤ sizeqCap g := by
  have hreach := h.szS_le_reach
  rw [sizeqCap, s32, s32, sub_mul, one_mul]
  omega

theorem szS_le_cap (h : SizeqPassed c g) : g.szS.toInt ≤ sizeqCap g := h.szS_le_tile.trans h.tile_le_cap

theorem cap_pos (h : SizeqPassed c g) : 1 ≤ sizeqCap g := h.s_pos.trans h.szS_le_cap

/-- RESULT_HI holds the capacity. -/
theorem toInt_ofInt_cap (h : SizeqPassed c g) : (BitVec.ofInt 32 (sizeqCap g)).toInt = sizeqCap g := by
  obtain ⟨-, -, hcap, -⟩ := h.fits
  have hpos := h.cap_pos
  rw [BitVec.toInt_ofInt]
  exact Int.bmod_eq_of_le (by omega) (by omega)

/-- RESULT_LO holds the bytes, which the buffer's size bounds. -/
theorem toNat_ofInt_bytes (h : SizeqPassed c g) : ((BitVec.ofInt 32 (sizeqBytes g)).toNat : Int) = sizeqBytes g := by
  obtain ⟨hlen, -, -, hbytes⟩ := h.fits
  have hpos : 0 ≤ sizeqBytes g :=
    mul_nonneg (mul_nonneg (zero_le_one.trans h.cap_pos) (zero_le_one.trans hlen)) (Int.natCast_nonneg _)
  rw [BitVec.toNat_ofInt]
  omega

/-- The capacity meets WINIT's size check, for the same line length and format (R160). -/
theorem winitSizeOk_cap (h : SizeqPassed c g) : winitSizeOk c { g with wCap := BitVec.ofInt 32 (sizeqCap g) } := by
  obtain ⟨hlen, hlen', hcap, hbytes⟩ := h.fits
  simp only [winitSizeOk, h.toInt_ofInt_cap]
  exact ⟨h.cap_pos, hlen, hcap, hlen', hbytes⟩

end SizeqPassed

/-- A SIZEQ that completed passed its checks. -/
theorem sizeqCheck_of_completed {s t : State} (h : exec .sizeq s = .next t) (ht : t.err = false) :
    sizeqCheck s.cfg s.regs = none := by
  cases hc : sizeqCheck s.cfg s.regs with
  | none => rfl
  | some e =>
    rw [exec_sizeq_of_check hc] at h
    cases h
    cases ht

theorem errWord_eq_size {e : ErrCode} (h : errWord e = BitVec.ofInt 32 (-7)) : e = .size := by
  revert h
  cases e <;> decide

/-- A WINIT whose size is right does not fail with ERR_SIZE. -/
theorem winit_errcode_ne_size {s t : State} (h : exec .winit s = .next t) (hs : winitSizeOk s.cfg s.regs) :
    t.errcode ≠ BitVec.ofInt 32 (-7) := by
  rcases execWinit_next h with ⟨e, he, rfl⟩ | ⟨-, rfl⟩
  · intro hcode
    obtain rfl := errWord_eq_size hcode
    simp [winitCheck_eq, check_eq_some, hs] at he
  · rw [succeed_errcode]
    decide

/-- Settles O47: the results are exact, WINIT's size check is SIZEQ's last one, and `S ≤ te·S ≤ cap`. -/
theorem sizeqCapacityIsAcceptedByWinit : Obligations.SizeqCapacityIsAcceptedByWinit := by
  intro s t h ht
  have hcheck := sizeqCheck_of_completed h ht
  have hp := sizeqPassed_of_check hcheck
  rw [exec_sizeq_of_passed hcheck] at h
  cases h
  simp only [succeed_resultHi, succeed_resultLo, hp.toInt_ofInt_cap, hp.toNat_ofInt_bytes]
  refine ⟨fun v hv => winit_errcode_ne_size hv hp.winitSizeOk_cap, hp.cap_pos, hp.szS_le_cap, rfl,
    fun outn hlo hhi => ?_⟩
  obtain rfl : sizeqOutn s.regs = outn := sizeqOutn_unique hp.s_pos hlo hhi
  exact ⟨hp.s_pos.trans hp.szS_le_tile, hp.tile_le_cap⟩

end Sys2Proof.Machine
end

section
/-! PROOFS. Where a command can stop at all (spec/42_host_interface.md R203; spec/20_memory.md R76, R79): only at an access of the master port, of which only RQM and WADV make any. -/

namespace Sys2Proof.Machine

theorem outcome_ne_next (st : Stop) (t : State) : st.outcome ≠ .next t := by cases st <;> nofun

theorem outcome_injective : Function.Injective Stop.outcome := by
  intro st st' h
  cases st <;> cases st' <;> cases h <;> rfl

/-! ### RQM -/

/-- An RQM that stops stops at one of its elements. -/
theorem execRqm_stop {perch : Bool} {a : AccWidth} {s : State} {st : Stop} (h : execRqm perch a s = st.outcome) :
    ∃ fmt, rqmElements perch a fmt s (u32 s.regs.rqCnt) = .error st := by
  unfold execRqm at h
  split at h
  · exact absurd h.symm (outcome_ne_next st _)
  · split at h
    · rename_i hst
      exact ⟨_, outcome_injective h ▸ hst⟩
    · exact absurd h.symm (outcome_ne_next st _)

/-! ### WADV -/

theorem loadCells_error {c : Params} {m : Memory} {w : Window} {l : Int} {n : Nat} {st : Stop}
    (h : loadCells c m w l n = .error st) : ∃ b, busStop1 c b = some st := by
  induction n with
  | zero => cases h
  | succ n ih =>
    unfold loadCells at h
    split at h
    · cases h; exact ih ‹_›
    · split at h
      · cases h; exact loadCell_error ‹_›
      · cases h

theorem loadNextLine_error {s : State} {st : Stop} (h : loadNextLine s = .error st) :
    ∃ b, busStop1 s.cfg b = some st := by
  unfold loadNextLine at h
  split at h
  · cases h; exact loadCells_error ‹_›
  · cases h

/-- The lines loaded before leave `cfg`, so what stopped loading stands in the state the command began in. -/
theorem loadLines_error {n : Nat} {s : State} {st : Stop} (h : loadLines n s = .error st) :
    ∃ b, busStop1 s.cfg b = some st := by
  induction n generalizing s with
  | zero => cases h
  | succ n ih =>
    unfold loadLines at h
    split at h
    · cases h; exact loadNextLine_error ‹_›
    · obtain ⟨_, -, rfl⟩ := loadNextLine_ok ‹_›
      have hbyte := ih h
      exact hbyte

/-- A WADV that stops stops in one of its lines. -/
theorem execWadv_stop {n : Nat} {s : State} {st : Stop} (h : execWadv n s = st.outcome) :
    loadLines n s = .error st := by
  unfold execWadv at h
  split at h
  · exact absurd h.symm (outcome_ne_next st _)
  · split at h
    · rename_i hst
      exact outcome_injective h ▸ hst
    · exact absurd h.symm (outcome_ne_next st _)

/-! ### Every command -/

theorem execWinit_total (s : State) : ∃ t, execWinit s = .next t := by
  unfold execWinit
  split <;> exact ⟨_, rfl⟩

/-- A command that stops is RQM or WADV, and one byte of the platform stopped it. -/
theorem exec_stop {i : Instr} {s : State} {st : Stop} (h : exec i s = st.outcome) :
    ((∃ p a, i = .rqm p a) ∨ ∃ n, i = .wadv n) ∧ ∃ b, busStop1 s.cfg b = some st := by
  cases i with
  | rqm p a =>
    obtain ⟨fmt, helems⟩ := execRqm_stop h
    exact ⟨.inl ⟨p, a, rfl⟩, rqmElements_error helems⟩
  | wadv n => exact ⟨.inr ⟨n, rfl⟩, loadLines_error (execWadv_stop h)⟩
  | winit =>
    obtain ⟨t, ht⟩ := execWinit_total s
    exact absurd (h.symm.trans ht) (outcome_ne_next st t)
  | nop | rq | rqpc | wrd | wclose | sizeq => exact absurd h.symm (outcome_ne_next st _)

/-- Settles O55: the byte that stopped the command also gives the reason. -/
theorem onlyMemoryAccessesStopACommand : Obligations.OnlyMemoryAccessesStopACommand := by
  refine fun i s => ⟨fun r h => ?_, fun r h => ?_⟩
  · obtain ⟨hi, b, hb⟩ := exec_stop (st := .fault r) h
    exact ⟨hi, b, by simpa using busStop1_eq_some hb, hb⟩
  · obtain ⟨hi, b, hb⟩ := exec_stop (st := .refused r) h
    exact ⟨hi, b, by simpa using busStop1_eq_some hb, hb⟩

end Sys2Proof.Machine
end

section
/-! PROOFS. The CMD write (spec/42_host_interface.md R202) and NOP (R205). -/

namespace Sys2Proof.Machine

open Sys2Proof.Statement

/-- The write of a word to CMD is its command step. -/
theorem step_cmd (s : State) (x : Word) (rest : List HostOp) :
    step (about s (.write .word 0x14 x) rest) = commandStep x { s with busy := false, pending := rest } :=
  step_write (accessDefined_of_regAt (r := .cmd) rfl)

theorem commandStep_of_illegal {x : Word} {e : Illegal} (h : decode x = .error e) (s : State) :
    commandStep x s = .next { s.fail .illegal with busy := false } := by
  simp only [commandStep, h]
  rfl

theorem commandStep_of_legal {x : Word} {i : Instr} (h : decode x = .ok i) (s : State) :
    commandStep x s = clearBusy (exec i { s with busy := true }) := by
  simp only [commandStep, h]

/-- Settles O5, by the two answers of the decoder; only a next state has BUSY to clear. -/
theorem cmdWriteRunsTheDecodedCommand : Obligations.CmdWriteRunsTheDecodedCommand := by
  intro s rest x
  rw [step_cmd]
  refine ⟨fun e he => commandStep_of_illegal he _, fun i hi => ?_⟩
  rw [commandStep_of_legal hi]
  exact ⟨fun t ht => congrArg clearBusy ht, fun r hr => congrArg clearBusy hr, fun r hr => congrArg clearBusy hr⟩

/-- Settles O48: NOP's row is the table's first, and NOP is `succeed`. -/
theorem nopClearsTheStatus : Obligations.NopClearsTheStatus :=
  ⟨encodedBy_of_row 0 (fun _ => rfl) fun _ => rfl, fun _ => rfl⟩

end Sys2Proof.Machine
end

section
/-! PROOFS. Host writes over the register map (spec/42_host_interface.md R200, R201; spec/10_state.md R42): what each offset stores, how a stored register reads back, and the accesses of another shape (U4). -/

namespace Sys2Proof.Machine

open Sys2Proof.Statement

/-! ### What a write stores -/

/-- Settles O11: each offset holds its register, and each register stores as listed. -/
theorem registerMapWrites : Obligations.RegisterMapWrites := by
  intro s v
  and_intros <;> exact stores_of_regAt rfl (by decide) (by decide) (by decide) rfl

/-- Settles O14: a read-only register has no storage among the read-write ones. -/
theorem readOnlyRegistersIgnoreWrites : Obligations.ReadOnlyRegistersIgnoreWrites := by
  intro s v
  and_intros <;> exact stores_of_regAt rfl (by decide) (by decide) (by decide) rfl

/-! ### Reading back -/

/-- A register whose upper bits are RAZ/WI shows the low bits of the value written. -/
theorem toNat_zero_append_low (v : Word) (k n : Nat) : (0#k ++ v.extractLsb' 0 n).toNat = v.toNat % 2 ^ n := by
  simp

theorem readReg_writeStored_self {r : Reg} (h : isStored r = true) (v : Word) (s : State) :
    readReg r { s with regs := writeStored r v s.regs } = v &&& storedMask r := by
  cases r with
  | id | cfg0 | cfg1 | status | errcode | cmd | resultLo | resultHi | pcMult | pcShift | wState | wHead | wCur | wValid
  | wTop => cases h
  | qfmt | wFmt =>
    exact BitVec.eq_of_toNat_eq ((toNat_zero_append_low v 29 3).trans (Nat.and_two_pow_sub_one_eq_mod v.toNat 3).symm)
  | pcIndex =>
    exact BitVec.eq_of_toNat_eq ((toNat_zero_append_low v 16 16).trans (Nat.and_two_pow_sub_one_eq_mod v.toNat 16).symm)
  | _ => exact BitVec.and_allOnes.symm

/-- Only a write of PC_INDEX changes the entry of `pc_tab` the ports select (R34). -/
theorem writeStored_pcIndex {r : Reg} (h : r ≠ .pcIndex) (v : Word) (g : Regs) :
    (writeStored r v g).pcIndex = g.pcIndex := by
  cases r with
  | pcIndex => contradiction
  | _ => rfl

/-- A port's reading depends on the registers through PC_INDEX only (R35, R36). -/
theorem readReg_port_congr {q : Reg} (hq : q = .pcMult ∨ q = .pcShift) {s : State} {g : Regs}
    (h : g.pcIndex = s.regs.pcIndex) : readReg q { s with regs := g } = readReg q s := by
  have hview : readReg q { s with regs := g } = readReg q { s with regs := { s.regs with pcIndex := g.pcIndex } } := by
    rcases hq with rfl | rfl <;> rfl
  rw [hview, h]

/-- A write shows at its own register, and through PC_INDEX at the two ports; nowhere else. Of two registers with storage, each write leaves the other's field, or they are the same register. -/
theorem readReg_writeStored_ne {q r : Reg} (hq : q ≠ r) (hports : r = .pcIndex → q ≠ .pcMult ∧ q ≠ .pcShift)
    (v : Word) (s : State) : readReg q { s with regs := writeStored r v s.regs } = readReg q s := by
  cases q with
  | id | cfg0 | cfg1 | status | errcode | cmd | resultLo | resultHi | wState | wHead | wCur | wValid | wTop => rfl
  | pcMult => exact readReg_port_congr (.inl rfl) (writeStored_pcIndex (fun hr => (hports hr).1 rfl) v s.regs)
  | pcShift => exact readReg_port_congr (.inr rfl) (writeStored_pcIndex (fun hr => (hports hr).2 rfl) v s.regs)
  | _ => cases r <;> first | rfl | contradiction

/-- Settles O12: a register with storage is neither CMD nor a port, so its write is `writeStored`. -/
theorem writtenRegisterReadsBackAlone : Obligations.WrittenRegisterReadsBackAlone := by
  intro s rest off r v hr hst
  have hcmd : r ≠ .cmd := by rintro rfl; cases hst
  have hmult : r ≠ .pcMult := by rintro rfl; cases hst
  have hshift : r ≠ .pcShift := by rintro rfl; cases hst
  refine ⟨_, step_write_reg hr hcmd, ?_, fun q hq hports => ?_⟩ <;> rw [writeReg_of_not_port hmult hshift]
  · exact readReg_writeStored_self hst v _
  · exact (readReg_writeStored_ne hq hports v _).trans (readReg_setPending q { s with busy := false } rest)

/-! ### Accesses of another shape -/

theorem accessDefined_eq_false {width : AccessWidth} {off : BitVec 8} :
    accessDefined width off = false ↔ width ≠ .word ∨ off.toNat % 4 ≠ 0 := by
  simp only [accessDefined, Bool.and_eq_false_iff, beq_eq_false_iff_ne]

/-- Settles O16: an idle block looks at the shape of an access before anything else. -/
theorem otherAccessShapesAreRefused : Obligations.OtherAccessShapesAreRefused := by
  intro s rest width off v hshape
  have hundef := accessDefined_eq_false.2 hshape
  simp [step, hostStep, about, hostOp, hundef]

end Sys2Proof.Machine
end

section
/-! PROOFS. Status codes (spec/60_exceptions.md R220, R221): a command fails with one of its codes and records nothing else, or completes; and the idle block (R235; spec/70_reset_and_hazards.md R252). -/

namespace Sys2Proof.Machine

open Sys2Proof.Statement

/-- A command fails with one of its codes and leaves the rest alone, or leaves the status of success. -/
theorem exec_status {i : Instr} {s t : State} (h : exec i s = .next t) :
    (∃ e ∈ raisedBy i, t = s.fail e) ∨ (t.errcode = 0 ∧ t.err = false) := by
  rcases exec_next h with hfail | ⟨_, _, rfl, -⟩ | ⟨_, rfl, -⟩ | ⟨rfl, -⟩ | ⟨_, rfl, -⟩ | ⟨rfl, -⟩ | ⟨rfl, -⟩
  case inl => exact .inl hfail
  all_goals exact .inr ⟨rfl, rfl⟩

/-- The codes a meaning raises are those of the table's rows that name the command (R220). -/
theorem errNumber_mem_mayRaise (i : Instr) : ∀ e ∈ raisedBy i, errNumber e ∈ mayRaise i := by
  cases i <;> simp [raisedBy, mayRaise, errNumber]

/-- Settles O49: a state with ERR = 1 is not one of success, so it is the failed one. -/
theorem failingCommandChangesOnlyTheStatus : Obligations.FailingCommandChangesOnlyTheStatus := by
  intro i s t h herr
  rcases exec_status h with ⟨e, -, rfl⟩ | ⟨-, hok⟩
  · rfl
  · exact absurd herr (by simp [hok])

/-- Settles O50: a failed command holds the number of one of its codes. -/
theorem commandsLeaveOnlyTheirStatusCodes : Obligations.CommandsLeaveOnlyTheirStatusCodes := by
  intro i s t h
  rcases exec_status h with ⟨e, he, rfl⟩ | hok
  · exact .inr ⟨rfl, errNumber e, errNumber_mem_mayRaise i e he, rfl⟩
  · exact .inl hok

/-- Settles O7: with no event to take, a step answers the state it was given. -/
theorem idleBlockDoesNotChange : Obligations.IdleBlockDoesNotChange := by
  intro s hidle
  simp only [step, hostStep, hidle]

end Sys2Proof.Machine
end

section
/-! PROOFS. A busy block (spec/70_reset_and_hazards.md R251, R260): the next event is a read of STATUS, or it is refused (log 8). -/

namespace Sys2Proof.Machine

/-- STATUS of a busy block has bit 0 set (R25). -/
theorem statusWord_busy (e : Bool) : (statusWord true e).getLsbD 0 = true := by cases e <;> rfl

theorem allowedWhileBusy_iff {op : HostOp} : allowedWhileBusy op = true ↔ op = .read .word 0x0C := by
  cases op with
  | read width off => cases width <;> simp [allowedWhileBusy]
  | write | memWrite | reset => simp [allowedWhileBusy]

/-- A read of STATUS completes, busy or not (R25, R200). -/
theorem hostOp_readStatus (s : State) :
    hostOp (.read .word 0x0C) s = .next { s with rdata := statusWord s.busy s.err } := by
  have hallowed : allowedWhileBusy (.read .word 0x0C) = true := allowedWhileBusy_iff.2 rfl
  have hdefined : accessDefined .word 0x0C = true := accessDefined_of_regAt (r := .status) rfl
  simp only [hostOp, hallowed, hdefined, Bool.not_true, Bool.and_false, Bool.false_eq_true, if_false, if_true]
  rfl

section
variable {s : State} {op : HostOp} {rest : List HostOp}

theorem step_of_pending (hp : s.pending = op :: rest) : step s = hostOp op { s with pending := rest } := by
  simp only [step, hostStep, hp]

theorem hostOp_of_busy (hb : s.busy = true) (hop : op ≠ .read .word 0x0C) :
    hostOp op s = .refused .hostAccessWhileBusy := by
  have hallowed : allowedWhileBusy op = false := Bool.eq_false_iff.2 (mt allowedWhileBusy_iff.1 hop)
  simp only [hostOp, hb, hallowed, Bool.not_false, Bool.and_self, if_true]

end

/-- Settles O17: of the events at a busy block, only the read of STATUS is allowed. -/
theorem busyBlockAllowsOnlyStatusReads : Obligations.BusyBlockAllowsOnlyStatusReads := by
  intro s op rest hb hp
  rw [step_of_pending hp]
  refine ⟨?_, hostOp_of_busy hb⟩
  rintro rfl
  refine ⟨_, hostOp_readStatus _, rfl, ?_⟩
  rw [hb]
  exact statusWord_busy s.err

end Sys2Proof.Machine
end

section
/-! PROOFS. The decode vectors (spec/95_test_vectors.md L2.6): a legal word is the word of its command, which `decode` reads back (R99), and a word that matches no row is illegal, by its OP byte (R95). -/

namespace Sys2Proof

section
variable {x : Word}

theorem decode_of_encode_eq {i : Instr} (hwf : i.wf = true) (h : encode i = x) : decode x = .ok i :=
  h ▸ decodeOfEncodeIsIdentity i hwf

section
variable (h : ∀ i ∈ tableCommands x, ¬i.row.matches x = true)
include h

theorem decode_eq_reservedBits (hop : fieldOp x ∈ listedOps) : decode x = .error .reservedBits := by
  rw [decode, List.find?_eq_none.mpr h]
  exact if_pos (List.contains_iff_mem.mpr hop)

theorem decode_eq_reservedOpcode (hop : fieldOp x ∉ listedOps) : decode x = .error .reservedOpcode := by
  rw [decode, List.find?_eq_none.mpr h]
  exact if_neg (mt List.contains_iff_mem.mp hop)

end
end

/-- Settles O1: the words of X1 to X13 are those of their commands; of the words that match no row, those of X14 to X19 have a listed OP and those of X20 do not. -/
theorem sampleWordsDecode : Obligations.SampleWordsDecode :=
  ⟨decode_of_encode_eq rfl rfl, decode_of_encode_eq rfl rfl, decode_of_encode_eq rfl rfl,
    decode_of_encode_eq rfl rfl, decode_of_encode_eq rfl rfl, decode_of_encode_eq rfl rfl,
    decode_of_encode_eq rfl rfl, decode_of_encode_eq rfl rfl, decode_of_encode_eq rfl rfl,
    decode_of_encode_eq rfl rfl, decode_of_encode_eq rfl rfl, decode_of_encode_eq rfl rfl,
    decode_of_encode_eq rfl rfl,
    decode_eq_reservedBits (by decide) (by decide), decode_eq_reservedBits (by decide) (by decide),
    decode_eq_reservedBits (by decide) (by decide), decode_eq_reservedBits (by decide) (by decide),
    decode_eq_reservedBits (by decide) (by decide), decode_eq_reservedBits (by decide) (by decide),
    decode_eq_reservedOpcode (by decide) (by decide), decode_eq_reservedOpcode (by decide) (by decide),
    decode_eq_reservedOpcode (by decide) (by decide), decode_eq_reservedOpcode (by decide) (by decide)⟩

end Sys2Proof
end
